-- ==== Sys2Proof/Word.lean ====
section
/-! DEFINITION. The 32-bit word of both streams and of every u32 quantity (00_scope.md R7,
20_memory.md R54). -/

namespace Sys2Proof

/-- One word of the command or response stream; also the `u32` of a pulse length, a
multiplier, the repeat count and a delay (R7). -/
abbrev Word := BitVec 32

end Sys2Proof
end

