-- ==== Sys2Proof/Syntax.lean ====
section
/-! DEFINITION. The terms of the spec (00_scope.md R12): symbols, waveforms, tables and the
nine commands, one constructor of `Instr` per row of spec/opcode_table.json. -/

namespace Sys2Proof

/-- A tri-state symbol `'0'`, `'1'`, `'F'` (R12, R72). -/
inductive Sym3 where
  | s0
  | s1
  | sF
deriving DecidableEq, Repr

/-- A pair of pulse-duration multipliers, first the high phase, then the low phase (R100). -/
structure Waveform where
  high : Word
  low : Word
deriving DecidableEq, Repr

/-- A protocol table (R12, R101); `pulseLength` is in microseconds. -/
structure Proto where
  pulseLength : Word
  sync : Waveform
  zero : Waveform
  one : Waveform
  inverted : Bool
deriving DecidableEq, Repr

/-- The nine commands (R76). Operands are those of the abstract level (R9, R12): naturals and
lists of any length, and for a channel or a code an integer, as the source's `int` (R77, R123,
R129; log entry 15). `Instr.WellFormed` says which of them a packet can carry. -/
inductive Instr where
  /-- SETPROTO.ROM `k` (R104). -/
  | setprotoRom (k : Nat)
  /-- SETPROTO.TBL `p` (R105). -/
  | setprotoTbl (p : Proto)
  /-- SENDRAW `bits` (R158); `true` is the raw symbol `'1'` (R72). -/
  | sendraw (bits : List Bool)
  /-- SENDTRI `syms` (R159). -/
  | sendtri (syms : List Sym3)
  /-- SWA.ON `ga, ch` (R126); bit `i` of `ga` is DIP switch `i+1` (R121). -/
  | swaOn (ga : Nat) (ch : Int)
  /-- SWA.OFF `ga, ch` (R127). -/
  | swaOff (ga : Nat) (ch : Int)
  /-- SWB.ON `ac, cc` (R130). -/
  | swbOn (ac cc : Int)
  /-- SWB.OFF `ac, cc` (R131). -/
  | swbOff (ac cc : Int)
  /-- ADDRPAT `pattern` (R122): the pattern's length and its characters, `true` for `'1'`; a
  packet carries the first 16 characters only (R79). -/
  | addrpat (plen : Nat) (pbits : List Bool)
deriving DecidableEq, Repr

end Sys2Proof
end

