-- ==== Sys2Proof/Config.lean ====
section
/-! DEFINITION. What an implementation fixes (00_scope.md R8, the table of record of
92_eei_decisions.md) and the model's one free value. The parameters are held in State as the
field `cfg`, which no step changes, so that a statement about every state holds for every value
of them or names the one it assumes (93_implementation_defined.md, treatment `parameter`). -/

namespace Sys2Proof

namespace Config

/-- `IDLE_POLICY` (R156, D12). -/
inductive IdlePolicy where
  /-- The closing drive is `Set(LOW)` outright: the value taken. -/
  | physLow
  /-- The closing drive is the nominal low put through `adjust`: the alternative. -/
  | nominalLow
deriving DecidableEq, Repr

/-- `TYPEB_INVALID_POLICY` (R130, D13). -/
inductive TypeBPolicy where
  /-- Out-of-range Type B codes hand over no event: the value taken. -/
  | noActivity
  /-- They are sent as the empty sequence: the alternative. -/
  | emptySend
deriving DecidableEq, Repr

/-- `SWA_FAULT_ORDER` (R123, R196, D14). -/
inductive FaultOrder where
  /-- A bad channel is reported before a bad address: the value taken. -/
  | channelFirst
  /-- A bad address is reported before a bad channel: the alternative. -/
  | addressFirst
deriving DecidableEq, Repr

/-- The parameters of R8 that some rule reads. -/
structure Params where
  idlePolicy : IdlePolicy
  typeBInvalid : TypeBPolicy
  swaFaultOrder : FaultOrder
  /-- `P_RESET_PROTOCOL`: the table a reset installs (R37, D9). -/
  resetProto : Proto
  /-- `REPEAT_RESET`: the repeat count a reset installs (R37, D10). -/
  resetRepeat : Word
deriving DecidableEq, Repr

/-- `MAXLEN` (R73, D6): the longest sequence a packet can carry. -/
def maxLen : Nat := 65535

/-- FREE VALUE (log entry 5): the argument of a `Delay` whose product `pulseLength * multiplier`
does not fit 32 bits. The spec gives no value (R106, R174), and no table that `PROTO` can hold
reaches it (R25). -/
opaque overflowDelay : Word → Word → Word

end Config

end Sys2Proof
end

