-- ==== Sys2Proof/Machine/Table.lean ====
section
/-! DEFINITION. The protocol table store (40_protocol_table.md): the well-formedness of a table
(10_state.md R25), its durations (R101) and the registry ROM (R102). -/

namespace Sys2Proof

/-- `WellFormed(p)` of R25: a positive pulse length, and each of the six products below 2^32. -/
abbrev Proto.WellFormed (p : Proto) : Prop :=
  0 < p.pulseLength.toNat ∧
  p.pulseLength.toNat * p.sync.high.toNat < 2 ^ 32 ∧
  p.pulseLength.toNat * p.sync.low.toNat < 2 ^ 32 ∧
  p.pulseLength.toNat * p.zero.high.toNat < 2 ^ 32 ∧
  p.pulseLength.toNat * p.zero.low.toNat < 2 ^ 32 ∧
  p.pulseLength.toNat * p.one.high.toNat < 2 ^ 32 ∧
  p.pulseLength.toNat * p.one.low.toNat < 2 ^ 32

namespace Machine

/-- `dHigh(p, w)` of R101, an exact natural number of microseconds. -/
def dHigh (p : Proto) (w : Waveform) : Nat := p.pulseLength.toNat * w.high.toNat

/-- `dLow(p, w)` of R101. -/
def dLow (p : Proto) (w : Waveform) : Nat := p.pulseLength.toNat * w.low.toNat

/-- Both phases of a waveform together: `dz`, `do` and `ds` of R167. -/
def dBoth (p : Proto) (w : Waveform) : Nat := dHigh p w + dLow p w

/-- A registry line in the source's own order: (protocol, pulseLength, sync, zero, one,
inverted), R102. -/
def registryRow (pulseLength syncHigh syncLow zeroHigh zeroLow oneHigh oneLow : Word)
    (inverted : Bool) : Proto :=
  { pulseLength := pulseLength
    sync := ⟨syncHigh, syncLow⟩
    zero := ⟨zeroHigh, zeroLow⟩
    one := ⟨oneHigh, oneLow⟩
    inverted := inverted }

/-- The registry, `ROM[k]` of R51 and R102: rows 1 to 7, no row 0 and none above 7. -/
def rom : Nat → Option Proto
  | 1 => some (registryRow 350 1 31 1 3 3 1 false)
  | 2 => some (registryRow 650 1 10 1 2 2 1 false)
  | 3 => some (registryRow 100 30 71 4 11 9 6 false)
  | 4 => some (registryRow 380 1 6 1 3 3 1 false)
  | 5 => some (registryRow 500 6 14 1 2 2 1 false)
  | 6 => some (registryRow 450 23 1 1 2 2 1 true)
  | 7 => some (registryRow 150 2 62 1 6 6 1 false)
  | _ => none

end Machine

end Sys2Proof
end

