-- ==== Sys2Proof/WellFormed.lean ====
section
/-! DEFINITION. Which command terms a packet can carry and the spec gives a meaning: the
operand ranges of 30_encoding.md. -/

namespace Sys2Proof

/-- The operands fit their fields and are not reserved (R73, R77 to R81, R83, R88). A channel
outside 1..5 or a code outside 1..4 is well-formed: it has a defined outcome (R84). -/
abbrev Instr.WellFormed : Instr → Prop
  | .setprotoRom k => 1 ≤ k ∧ k ≤ 7
  | .setprotoTbl p => p.WellFormed
  | .sendraw bits => bits.length ≤ Config.maxLen
  | .sendtri syms => syms.length ≤ Config.maxLen
  | .swaOn ga ch => ga < 2 ^ 16 ∧ 0 ≤ ch ∧ ch < 2 ^ 8
  | .swaOff ga ch => ga < 2 ^ 16 ∧ 0 ≤ ch ∧ ch < 2 ^ 8
  | .swbOn ac cc => (0 ≤ ac ∧ ac < 2 ^ 8) ∧ 0 ≤ cc ∧ cc < 2 ^ 8
  | .swbOff ac cc => (0 ≤ ac ∧ ac < 2 ^ 8) ∧ 0 ≤ cc ∧ cc < 2 ^ 8
  | .addrpat plen pbits => plen < 2 ^ 8 ∧ pbits.length = min plen 16

end Sys2Proof
end

