-- ==== Sys2Proof/Decode.lean ====
section
/-! DEFINITION. From words to commands and back (30_encoding.md): fields, the length of a
packet, the decoder of R89, which refuses by name, and the encoder, its inverse. -/

namespace Sys2Proof

/-- The reserved encodings of R83 (a) to (e), by name. -/
inductive DecodeError where
  /-- R83 (a): `OPC` 0x0 or 0x8 to 0xF. -/
  | reservedOpcode
  /-- R83 (b): a reserved header bit that is not 0. -/
  | reservedBits
  /-- R83 (c): SETPROTO.ROM with `IDX` 0 or 8 to 15. -/
  | reservedIndex
  /-- R83 (d): a padding bit of a payload, or `PBITS[i]` with `i >= PLEN`, that is not 0. -/
  | nonzeroPadding
  /-- R83 (e): the symbol code `0b11` at a position below `LEN`. -/
  | reservedSymbol
deriving DecidableEq, Repr

/-! ### Fields -/

/-- The slice `w[lo+len-1 : lo]` as a number (R10, R88). -/
def field (w : Word) (lo len : Nat) : Nat := w.toNat / 2 ^ lo % 2 ^ len

/-- The opcode, header bits 31:28 (R71). -/
def opc (h : Word) : Nat := field h 28 4

/-- The bits `v[i]` for `i <- 0..n-1`, in that order: the list a payload word (R74) or `PBITS`
(R79, R89) stands for. -/
def bitsOfNat (n v : Nat) : List Bool := (List.range n).map v.testBit

/-- The bit field in which element `i` of a list is bit `i` (R74, R79), read as a number (R10). -/
def natOfBits (bits : List Bool) : Nat := (BitVec.ofBoolListLE bits).toNat

/-- The symbol of a 2-bit code (R72). -/
def symOfCode : Nat → Option Sym3
  | 0 => some .s0
  | 1 => some .s1
  | 2 => some .sF
  | _ => none

/-- The 2-bit code of a symbol (R72). -/
def codeOfSym : Sym3 → Nat
  | .s0 => 0
  | .s1 => 1
  | .sF => 2

/-- The symbols of the low `n` bit pairs of `v`, the lowest pair first (R75); none where a pair
is `0b11`. -/
def symsOfNat : Nat → Nat → Option (List Sym3)
  | 0, _ => some []
  | n + 1, v =>
    match symOfCode (v % 4), symsOfNat n (v / 4) with
    | some x, some xs => some (x :: xs)
    | _, _ => none

/-- The number whose bit pair `i` is the code of symbol `i`: inverse of `symsOfNat`. -/
def natOfSyms : List Sym3 → Nat
  | [] => 0
  | x :: xs => codeOfSym x + 4 * natOfSyms xs

/-! ### Payloads -/

/-- `ceil(len / per)`: the payload words of a sequence with `per` symbols to a word (R85). -/
def seqWords (per len : Nat) : Nat := (len + (per - 1)) / per

/-- The bits of a SENDRAW payload: 32 to a word, the rest of the sequence in the next words
(R74). -/
def unpackRaw : Nat → List Word → List Bool
  | _, [] => []
  | n, w :: ws => bitsOfNat (min n 32) w.toNat ++ unpackRaw (n - 32) ws

/-- No bit of a SENDRAW payload stands above the sequence's last (R74, R83 (d)). -/
def padOkRaw : Nat → List Word → Bool
  | _, [] => true
  | n, w :: ws => w.toNat / 2 ^ min n 32 == 0 && padOkRaw (n - 32) ws

/-- The symbols of a SENDTRI payload: 16 to a word (R75). -/
def unpackTri : Nat → List Word → Option (List Sym3)
  | _, [] => some []
  | n, w :: ws =>
    match symsOfNat (min n 16) w.toNat, unpackTri (n - 16) ws with
    | some xs, some ys => some (xs ++ ys)
    | _, _ => none

/-- No bit pair of a SENDTRI payload stands above the codeword's last symbol (R75, R83 (d)). -/
def padOkTri : Nat → List Word → Bool
  | _, [] => true
  | n, w :: ws => w.toNat / 4 ^ min n 16 == 0 && padOkTri (n - 16) ws

/-- The payload words of a bit sequence, `n` of them (R74). -/
def packRaw : Nat → List Bool → List Word
  | 0, _ => []
  | n + 1, bs => BitVec.ofNat 32 (natOfBits (bs.take 32)) :: packRaw n (bs.drop 32)

/-- The payload words of a codeword, `n` of them (R75). -/
def packTri : Nat → List Sym3 → List Word
  | 0, _ => []
  | n + 1, xs => BitVec.ofNat 32 (natOfSyms (xs.take 16)) :: packTri n (xs.drop 16)

/-! ### The decoder -/

/-- How many payload words follow the header (R85), read from the header alone; a reserved
header has no length (R83), so everything the header itself can be refused for is checked
here. -/
def payloadWords (h : Word) : Except DecodeError Nat :=
  match opc h with
  | 1 =>
    if field h 4 24 ≠ 0 then .error .reservedBits
    else if field h 0 4 = 0 ∨ 8 ≤ field h 0 4 then .error .reservedIndex
    else .ok 0
  | 2 => if field h 1 27 ≠ 0 then .error .reservedBits else .ok 7
  | 3 => if field h 16 12 ≠ 0 then .error .reservedBits else .ok (seqWords 32 (field h 0 16))
  | 4 => if field h 16 12 ≠ 0 then .error .reservedBits else .ok (seqWords 16 (field h 0 16))
  | 5 => if field h 24 3 ≠ 0 then .error .reservedBits else .ok 0
  | 6 => if field h 24 3 ≠ 0 ∨ field h 0 8 ≠ 0 then .error .reservedBits else .ok 0
  | 7 =>
    if field h 24 4 ≠ 0 then .error .reservedBits
    else if field h 0 16 / 2 ^ min (field h 16 8) 16 ≠ 0 then .error .nonzeroPadding
    else .ok 0
  | _ => .error .reservedOpcode

/-- The table of a SETPROTO.TBL packet (R81). `decode` passes exactly seven payload words, so the
default of `getD` is never read. -/
def tableOf (h : Word) (payload : List Word) : Proto :=
  { pulseLength := payload.getD 0 0
    sync := ⟨payload.getD 1 0, payload.getD 2 0⟩
    zero := ⟨payload.getD 3 0, payload.getD 4 0⟩
    one := ⟨payload.getD 5 0, payload.getD 6 0⟩
    inverted := field h 0 1 == 1 }

/-- `decode(h :: payload)` of R89, for a header that `payloadWords` accepts and its payload. -/
def decodePacket (h : Word) (payload : List Word) : Except DecodeError Instr :=
  match opc h with
  | 1 => .ok (.setprotoRom (field h 0 4))
  | 2 => .ok (.setprotoTbl (tableOf h payload))
  | 3 =>
    if padOkRaw (field h 0 16) payload then .ok (.sendraw (unpackRaw (field h 0 16) payload))
    else .error .nonzeroPadding
  | 4 =>
    if padOkTri (field h 0 16) payload then
      match unpackTri (field h 0 16) payload with
      | some xs => .ok (.sendtri xs)
      | none => .error .reservedSymbol
    else .error .nonzeroPadding
  | 5 =>
    if field h 27 1 = 1 then .ok (.swaOn (field h 0 16) (field h 16 8))
    else .ok (.swaOff (field h 0 16) (field h 16 8))
  | 6 =>
    if field h 27 1 = 1 then .ok (.swbOn (field h 16 8) (field h 8 8))
    else .ok (.swbOff (field h 16 8) (field h 8 8))
  | 7 => .ok (.addrpat (field h 16 8) (bitsOfNat (min (field h 16 8) 16) (field h 0 16)))
  | _ => .error .reservedOpcode

/-- What the front of a command stream holds. -/
inductive Decoded where
  /-- Not a whole packet yet: the stream is empty or payload words are still to come (R52). -/
  | more
  /-- A reserved encoding (R83). -/
  | reserved (e : DecodeError)
  /-- A command, and the words after its packet. -/
  | command (i : Instr) (rest : List Word)
deriving DecidableEq, Repr

/-- The decoder, total on any words: the first packet of a stream (R52, R85, R89). -/
def decode : List Word → Decoded
  | [] => .more
  | h :: t =>
    match payloadWords h with
    | .error e => .reserved e
    | .ok n =>
      if t.length < n then .more
      else
        match decodePacket h (t.take n) with
        | .error e => .reserved e
        | .ok i => .command i (t.drop n)

/-! ### The encoder -/

/-- A header word: the opcode, then the fields already in place (R71). -/
def header (opcode fields : Nat) : Word := BitVec.ofNat 32 (opcode * 2 ^ 28 + fields)

/-- The packet of a command (R73 to R81); the inverse of `decode` on well-formed commands
(R89). -/
def encode : Instr → List Word
  | .setprotoRom k => [header 0x1 k]
  | .setprotoTbl p =>
    [header 0x2 p.inverted.toNat, p.pulseLength, p.sync.high, p.sync.low, p.zero.high,
      p.zero.low, p.one.high, p.one.low]
  | .sendraw bits => header 0x3 bits.length :: packRaw (seqWords 32 bits.length) bits
  | .sendtri syms => header 0x4 syms.length :: packTri (seqWords 16 syms.length) syms
  | .swaOn ga ch => [header 0x5 (2 ^ 27 + ch.toNat * 2 ^ 16 + ga)]
  | .swaOff ga ch => [header 0x5 (ch.toNat * 2 ^ 16 + ga)]
  | .swbOn ac cc => [header 0x6 (2 ^ 27 + ac.toNat * 2 ^ 16 + cc.toNat * 2 ^ 8)]
  | .swbOff ac cc => [header 0x6 (ac.toNat * 2 ^ 16 + cc.toNat * 2 ^ 8)]
  | .addrpat plen pbits => [header 0x7 (plen * 2 ^ 16 + natOfBits pbits)]

/-! ### The words of a row of the opcode table -/

/-- `n` words of a number: word `j` holds its bits from `32*j` on. -/
def wordsOfNat (n v : Nat) : List Word :=
  (List.range n).map fun j => BitVec.ofNat 32 (v >>> (32 * j))

/-- The packet whose bits are `w`, bit 0 being the least significant bit of the first word: at
least the words that `nbits` spans, and as many zero words more as the header asks for. -/
def tableWords (nbits w : Nat) : List Word :=
  let spanned := (nbits + 31) / 32
  match payloadWords (BitVec.ofNat 32 w) with
  | .ok n => wordsOfNat (max spanned (n + 1)) w
  | .error _ => wordsOfNat (max spanned 1) w

/-- The command the decoder reads from an instruction whose bits are `w`. -/
def decodeTableWord (nbits w : Nat) : Option Instr :=
  match decode (tableWords nbits w) with
  | .command i _ => some i
  | _ => none

end Sys2Proof
end

