-- ==== Sys2Proof/Machine/State.lean ====
section
/-! DEFINITION. The state of the block (10_state.md R20), its ports and parameters, the reasons a
step can stop, and the state after reset (R37). Plain data throughout. -/

namespace Sys2Proof

namespace Machine

/-- A physical level of the pin (R12). -/
inductive Level where
  | low
  | high
deriving DecidableEq, Repr

/-- One call on the collaborator (R12, R33). -/
inductive Event where
  /-- `Set(LOW)`, `Set(HIGH)`: `setLow()`, `setHigh()`. -/
  | set (level : Level)
  /-- `Delay(n)`: `delayMicroseconds(n)`. -/
  | delay (n : Word)
deriving DecidableEq, Repr

/-- The error kinds (R190). -/
inductive ErrorKind where
  | invalidChannel
  | invalidAddress
  /-- Has a code; no rule raises it (R195). -/
  | invalidPattern
deriving DecidableEq, Repr

/-- A response (R12, R82). -/
inductive Resp where
  | ok
  /-- `OKV(v)`: the 5-bit address of a successful ADDRPAT. -/
  | okv (v : BitVec 5)
  | err (e : ErrorKind)
deriving DecidableEq, Repr

/-- `SEQ.STATE` (R28). -/
inductive SeqState where
  | idle
  | transmitting
deriving DecidableEq, Repr

/-- `SEQ.MODE` and `SEQ.BUF` together (R29): the constructor is the mode. -/
inductive Buf where
  /-- Mode TRI. -/
  | tri (syms : List Sym3)
  /-- Mode RAW. -/
  | raw (bits : List Bool)
deriving DecidableEq, Repr

/-- `SEQ.sub` (R30): which of a symbol's emissions. -/
inductive Sub where
  /-- `sub = 0`. -/
  | first
  /-- `sub = 1`. -/
  | second
deriving DecidableEq, Repr

/-- `SEQ.ph` (R30): which event of the emission comes next. -/
inductive Phase where
  /-- `ph = 0`: drive effective high. -/
  | driveHigh
  /-- `ph = 1`: delay of the high phase. -/
  | delayHigh
  /-- `ph = 2`: drive effective low. -/
  | driveLow
  /-- `ph = 3`: delay of the low phase. -/
  | delayLow
deriving DecidableEq, Repr

/-- The reasons the machine stops with a fault: none. "There is no fault outcome" (R210). -/
inductive Fault
deriving DecidableEq, Repr

/-- The reasons a command has no meaning. Every one is safe: the model stops where the spec says
nothing, so nothing can be proved of what comes after (R83, R210). -/
inductive Refusal where
  /-- Raised by `exec` alone, for an instruction that has no meaning yet. Safe. -/
  | notModelled (mnemonic : String)
  /-- Raised by the fetch of a packet whose encoding is reserved (R83 (a) to (e)). Safe. -/
  | reserved (e : DecodeError)
  /-- Raised by SETPROTO.ROM with a row outside 1..7, which no packet decodes to (R83 (c)). Safe. -/
  | noRegistryRow
  /-- Raised by SETPROTO.TBL with a table that is not well-formed (R83 (f), R106). Safe. -/
  | illFormedTable
  /-- Raised by ADDRPAT on a term that says length 5 and carries another number of characters,
  which is no string and which no packet decodes to (R12, R122). Safe. -/
  | malformedPattern
deriving DecidableEq, Repr

/-- The machine: the state of R20, the ports of R33 and R35, the parameters of R8. -/
structure State where
  /-- `PROTO` (R24), CR0 to CR7. -/
  proto : Proto
  /-- `REPEAT` (R27), CR8. -/
  repeatCount : Word
  /-- `SEQ.STATE` (R28). -/
  seqState : SeqState
  /-- `SEQ.MODE` and `SEQ.BUF` (R29). -/
  buf : Buf
  /-- `SEQ.rep` (R30): passes completed, 32 bits wide. -/
  rep : Word
  /-- `SEQ.slot` (R30): the symbol being rendered; `N` is the sync waveform. Its width is "enough for
  `MAXLEN`", and the abstract level has no `MAXLEN` (R73), hence a natural number. -/
  slot : Nat
  /-- `SEQ.sub` (R30). -/
  sub : Sub
  /-- `SEQ.ph` (R30). -/
  ph : Phase
  /-- `PINLEVEL` (R31): `none` is `unknown`. -/
  pinLevel : Option Level
  /-- The words of the packet being taken (R35, R52): a transfer in progress. -/
  pkt : List Word
  /-- The response on offer (R35, R53). -/
  rsp : Option Resp
  /-- Input `rst` (R35, R220). -/
  rst : Bool
  /-- Input `pin_present` (R32). -/
  pinPresent : Bool
  /-- Input `io_ready` (R33): the collaborator completes the event on offer. -/
  ioReady : Bool
  /-- Input `rsp_ready` (R35): the host takes the response on offer. -/
  rspReady : Bool
  /-- The command stream (R52): the words the host has written and the block has not taken. -/
  cmdIn : List Word
  /-- Observation (a) of R34: the events completed, oldest first. -/
  events : List Event
  /-- Observation (b) of R34: the responses returned, oldest first. -/
  responses : List Resp
  /-- The parameters of R8. -/
  cfg : Config.Params
deriving DecidableEq, Repr

/-- The parameters at the values 92_eei_decisions.md takes. `resetProto` is open there (D9): row 1
is a DESIGN CHOICE (log entry 1). -/
def standardParams : Config.Params :=
  { idlePolicy := .physLow
    typeBInvalid := .noActivity
    swaFaultOrder := .channelFirst
    resetProto := registryRow 350 1 31 1 3 3 1 false
    resetRepeat := 10 }

/-- The machine right after reset, for any parameters (R37, R220). The sequencer latch and
position are unspecified in IDLE; the values here are a DESIGN CHOICE (log entry 4), and so are
the inputs (log entry 6). -/
def State.resetWith (cfg : Config.Params) : State :=
  { proto := cfg.resetProto
    repeatCount := cfg.resetRepeat
    seqState := .idle
    buf := .raw []
    rep := 0
    slot := 0
    sub := .first
    ph := .driveHigh
    pinLevel := none
    pkt := []
    rsp := none
    rst := false
    pinPresent := true
    ioReady := true
    rspReady := true
    cmdIn := []
    events := []
    responses := []
    cfg := cfg }

/-- The machine right after reset (R37). -/
def State.reset : State := State.resetWith standardParams

end Machine

end Sys2Proof
end

