-- ==== Sys2Proof/Machine/Operands.lean ====
section
/-! DEFINITION. The encoder (41_encoder.md): a pure function from the operands of a command to
an address, a codeword or an error. It reads no state but the parameter that orders the two
checks of R123. -/

namespace Sys2Proof

namespace Machine

/-! ### ADDRPAT (R122) -/

/-- `v[i] <- pbits[i]`: the first character is bit 0. -/
def addressOf (pbits : List Bool) : BitVec 5 := BitVec.ofNat 5 (natOfBits pbits)

/-! ### Type A (R121 to R125) -/

/-- `channel` outside [1,5], a negative one among them (R77, R123, R192). -/
abbrev badChannel (ch : Int) : Prop := ch < 1 ∨ 5 < ch

/-- More than 5 significant bits (R121, R123, R193). -/
abbrev badAddress (ga : Nat) : Prop := 32 ≤ ga

/-- `validA(ga, ch)` of R123: the error, or none. Only with both operands bad does the order
matter (R196). -/
def validA (order : Config.FaultOrder) (ga : Nat) (ch : Int) : Option ErrorKind :=
  match order with
  | .channelFirst =>
    if badChannel ch then some .invalidChannel
    else if badAddress ga then some .invalidAddress
    else none
  | .addressFirst =>
    if badAddress ga then some .invalidAddress
    else if badChannel ch then some .invalidChannel
    else none

/-- A table entry of R124 or R128: `width` symbols, `'0'` at position `k-1` and `'F'`
elsewhere, for `k` in `1..width`. DESIGN CHOICE (log entry 27): the spec gives entry 0 no content
and the tables have no entry past `width`; for these `k` the value here is all `'F'`, and no command
reads it. -/
def oneHot (width : Nat) (k : Int) : List Sym3 :=
  (List.range width).map fun j => if (j : Int) = k - 1 then .s0 else .sF

/-- `chanA(k)` of R124, for a channel that `validA` accepts; elsewhere log entry 27. -/
def chanA (k : Int) : List Sym3 := oneHot 5 k

/-- The five address symbols of R125: a set bit is `'0'`, a clear bit `'F'`, index 0 first. -/
def addressSyms (ga : Nat) : List Sym3 :=
  (List.range 5).map fun i => if ga.testBit i then .s0 else .sF

/-- The two status symbols of R125. -/
def statusA (on : Bool) : List Sym3 := if on then [.s0, .sF] else [.sF, .s0]

/-- `encA(ga, ch, s)` of R125, for operands that `validA` accepts; it is used for no others, and its
value there is the model's (log entry 27). -/
def encA (ga : Nat) (ch : Int) (on : Bool) : List Sym3 := addressSyms ga ++ chanA ch ++ statusA on

/-! ### Type B (R128, R129) -/

/-- `codeB(k)` of R128, for a code in [1,4]; elsewhere log entry 27. -/
def codeB (k : Int) : List Sym3 := oneHot 4 k

/-- A code outside [1,4], a negative one among them (R129). -/
abbrev badCode (k : Int) : Prop := k < 1 ∨ 4 < k

/-- The status symbol of R129. -/
def statusB (on : Bool) : Sym3 := if on then .sF else .s0

/-- `encB(ac, cc, s)` of R129; `none` is `INVALID`. -/
def encB (ac cc : Int) (on : Bool) : Option (List Sym3) :=
  if badCode ac ∨ badCode cc then none
  else some (codeB ac ++ codeB cc ++ [.sF, .sF, .sF] ++ [statusB on])

end Machine

end Sys2Proof
end

