-- ==== Sys2Proof/Machine/Flags.lean ====
section
/-! DEFINITION. The block has no flags (10_state.md R23). What other machines keep in flags, the
outcome of a command, is its response word (30_encoding.md R82, 60_exceptions.md R191). -/

namespace Sys2Proof

namespace Machine

/-- The numbers of the error kinds (R191). -/
def ErrorKind.code : ErrorKind → Nat
  | .invalidChannel => 1
  | .invalidAddress => 2
  | .invalidPattern => 3

/-- `RC` (R82). -/
def Resp.code : Resp → Nat
  | .ok => 0
  | .okv _ => 0
  | .err e => e.code

/-- `VAL` (R82): ADDRPAT's result, and 0 in every other response. -/
def Resp.val : Resp → BitVec 5
  | .okv v => v
  | .ok => 0
  | .err _ => 0

/-- The response word (R82). -/
def Resp.word (r : Resp) : Word := BitVec.ofNat 32 (r.code * 2 ^ 28 + r.val.toNat)

end Machine

end Sys2Proof
end

