-- ==== Sys2Proof/Machine/Waves.lean ====
section
/-! DEFINITION. The transmitter as functions from a table to event lists (42_transmitter.md R150
to R157, "big step"): levels, emissions, symbol mappings, passes and whole sends. -/

namespace Sys2Proof

namespace Machine

/-- `adjust(p, nominal)` of R150. -/
def adjust (p : Proto) (nominal : Bool) : Level := if p.inverted ^^ nominal then .high else .low

/-- The argument of a `Delay` (R151, R174): the exact product where it fits 32 bits, as it does
for every table `PROTO` can hold (R25); elsewhere the free value of log entry 5. -/
def delayArg (pulseLength multiplier : Word) : Word :=
  if pulseLength.toNat * multiplier.toNat < 2 ^ 32 then
    BitVec.ofNat 32 (pulseLength.toNat * multiplier.toNat)
  else Config.overflowDelay pulseLength multiplier

/-- The event of one phase of a waveform (R151, R163). -/
def phaseEvent (p : Proto) (w : Waveform) : Phase → Event
  | .driveHigh => .set (adjust p true)
  | .delayHigh => .delay (delayArg p.pulseLength w.high)
  | .driveLow => .set (adjust p false)
  | .delayLow => .delay (delayArg p.pulseLength w.low)

/-- `emit(p, w)` of R151: four events. -/
def emit (p : Proto) (w : Waveform) : List Event :=
  [phaseEvent p w .driveHigh, phaseEvent p w .delayHigh,
    phaseEvent p w .driveLow, phaseEvent p w .delayLow]

/-- `mapTri(p, x)` of R152. -/
def mapTri (p : Proto) : Sym3 → List Event
  | .s0 => emit p p.zero ++ emit p p.zero
  | .s1 => emit p p.one ++ emit p p.one
  | .sF => emit p p.zero ++ emit p p.one

/-- `mapRaw(p, b)` of R153. -/
def mapRaw (p : Proto) (b : Bool) : List Event := emit p (if b then p.one else p.zero)

/-- The events of all symbols of a sequence, without the sync (R154). -/
def symbolEvents (p : Proto) : Buf → List Event
  | .tri syms => syms.flatMap (mapTri p)
  | .raw bits => bits.flatMap (mapRaw p)

/-- `pass(p, mode, seq)` of R154. -/
def passEvents (p : Proto) (b : Buf) : List Event := symbolEvents p b ++ emit p p.sync

/-- The level of the closing drive (R156). -/
def idleLevel (policy : Config.IdlePolicy) (p : Proto) : Level :=
  match policy with
  | .physLow => .low
  | .nominalLow => adjust p false

/-- `idle(p)` of R156. -/
def idleDrive (policy : Config.IdlePolicy) (p : Proto) : List Event := [.set (idleLevel policy p)]

/-- `rep(n, l)` of R10. -/
def repeated {α : Type} (n : Nat) (l : List α) : List α := (List.replicate n l).flatten

/-- `sendEvents(p, R, mode, seq)` of R155. -/
def sendEvents (policy : Config.IdlePolicy) (p : Proto) (r : Nat) (b : Buf) : List Event :=
  repeated r (passEvents p b) ++ idleDrive policy p

/-- `N = len(SEQ.BUF)` (R29). -/
def Buf.len : Buf → Nat
  | .tri syms => syms.length
  | .raw bits => bits.length

/-- `E` of R166: the events of one symbol. -/
def Buf.eventsPerSymbol : Buf → Nat
  | .tri _ => 8
  | .raw _ => 4

/-- Two emissions in a slot, or one: `nsub(slot) = 2` of R162. -/
def Buf.twoEmissions (b : Buf) (slot : Nat) : Bool :=
  match b with
  | .tri syms => decide (slot < syms.length)
  | .raw _ => false

/-- `wave(slot, sub)` of R162; a slot past the last symbol is the sync slot. -/
def Buf.wave (b : Buf) (p : Proto) (slot : Nat) (sub : Sub) : Waveform :=
  match b with
  | .raw bits =>
    match bits[slot]? with
    | some true => p.one
    | some false => p.zero
    | none => p.sync
  | .tri syms =>
    match syms[slot]?, sub with
    | some .s0, _ => p.zero
    | some .s1, _ => p.one
    | some .sF, .first => p.zero
    | some .sF, .second => p.one
    | none, _ => p.sync

end Machine

end Sys2Proof
end

