-- ==== Sys2Proof/Machine/Ops.lean ====
section
/-! DEFINITION. The named operations on the state: responding, raising an error, installing a
table, the sequencer (R161 to R165), taking words (R52), handing a response over (R53), reset
(R220, R221). -/

namespace Sys2Proof

namespace Machine

/-! ### Responses and errors -/

/-- `Respond(rc, v)` of R11: the response is put on offer. -/
def respond (r : Resp) (s : State) : State := { s with rsp := some r }

/-- `raise E` of R194: the one way a command ends in an error. No state is written and no event
handed over; only the response goes on offer. There is nothing to return from (R197). -/
def raiseError (e : ErrorKind) (s : State) : State := respond (.err e) s

/-- The host takes the response on offer (R35, R53). -/
def handResponse (r : Resp) (s : State) : State :=
  if s.rspReady then { s with rsp := none, responses := s.responses ++ [r] } else s

/-! ### The table register -/

/-- `CR.PROTO <- p`, all eight fields at once (R26, R56, R108). -/
def writeProto (p : Proto) (s : State) : State := { s with proto := p }

/-! ### The sequencer -/

/-- The start of a send that found the pin present (R161). -/
def startSend (b : Buf) (s : State) : State :=
  { s with seqState := .transmitting, buf := b, rep := 0, slot := 0, sub := .first, ph := .driveHigh }

/-- `Send(mode, seq)` and the `Respond(OK, 0)` after it (R155, R157): with the pin absent the
response comes at once; with the pin present `endSend` gives it after the last event. -/
def send (b : Buf) (s : State) : State := if s.pinPresent then startSend b s else respond .ok s

/-- The event at the sequencer's position, with `SEQ.rep < R` (R163). -/
def positionEvent (s : State) : Event := phaseEvent s.proto (s.buf.wave s.proto s.slot s.sub) s.ph

/-- The closing drive (R156, R165). -/
def closingEvent (s : State) : Event := .set (idleLevel s.cfg.idlePolicy s.proto)

/-- The passes not yet completed: `SEQ.rep < R` (R30, R163). -/
abbrev State.passesLeft (s : State) : Prop := s.rep < s.repeatCount

/-- The event the block offers on the event port: none in IDLE (R33, R163, R165). -/
def offered (s : State) : Option Event :=
  match s.seqState with
  | .idle => none
  | .transmitting => some (if s.passesLeft then positionEvent s else closingEvent s)

/-- `PINLEVEL` after an event: the level of a `Set` (R31, R163). -/
def Event.levelAfter : Event → Option Level → Option Level
  | .set l, _ => some l
  | .delay _, l => l

/-- The collaborator has completed an event (R33, R34, R163). -/
def complete (e : Event) (s : State) : State :=
  { s with events := s.events ++ [e], pinLevel := e.levelAfter s.pinLevel }

/-- On to the next slot, or to the next pass after the sync slot (R164). -/
def nextSlot (s : State) : State :=
  if s.slot < s.buf.len then { s with sub := .first, slot := s.slot + 1 }
  else { s with sub := .first, slot := 0, rep := s.rep + 1 }

/-- The second emission of the slot where it has one, else the next slot (R164). -/
def nextEmission (s : State) : State :=
  match s.sub with
  | .first => if s.buf.twoEmissions s.slot then { s with sub := .second } else nextSlot s
  | .second => nextSlot s

/-- The position after an event has completed, with `SEQ.rep < R` (R164). -/
def advance (s : State) : State :=
  match s.ph with
  | .driveHigh => { s with ph := .delayHigh }
  | .delayHigh => { s with ph := .driveLow }
  | .driveLow => { s with ph := .delayLow }
  | .delayLow => nextEmission { s with ph := .driveHigh }

/-- The event step (R163, R164). -/
def eventStep (s : State) : State := advance (complete (positionEvent s) s)

/-- The end of a send: the closing drive, IDLE, the response (R165). -/
def endSend (s : State) : State :=
  respond .ok { complete (closingEvent s) s with seqState := .idle }

/-- One step in TRANSMITTING. The block waits, for ever if need be, until the collaborator has
completed the event on offer (R163, R208). -/
def transmitStep (s : State) : State :=
  if s.ioReady then if s.passesLeft then eventStep s else endSend s else s

/-! ### Taking a packet -/

/-- What a fetch in IDLE does. -/
inductive Fetched where
  /-- The words there are have been taken; the packet is not whole. -/
  | waits (s : State)
  /-- A reserved encoding (R83). -/
  | reserved (e : DecodeError)
  /-- A whole packet has been taken and latched (R62). -/
  | command (i : Instr) (s : State)
deriving DecidableEq, Repr

/-- `CmdRead()` until the packet is whole (R35, R52, R62): the words already taken come first,
the words after the packet stay in the stream. -/
def fetch (s : State) : Fetched :=
  match decode (s.pkt ++ s.cmdIn) with
  | .more => .waits { s with pkt := s.pkt ++ s.cmdIn, cmdIn := [] }
  | .reserved e => .reserved e
  | .command i rest => .command i { s with pkt := [], cmdIn := rest }

/-! ### Reset -/

/-- The event on offer at the moment of a reset "may or may not have been completed" (R221): it
has if the collaborator's `io_ready` says so, and nothing constrains that input. -/
def settleOffered (s : State) : State :=
  match offered s with
  | some e => if s.ioReady then complete e s else s
  | none => s

/-- A reset at any moment (R37, R220, R221): the state of R37, the observation so far kept, no
closing drive, no response. The stream's words not yet taken stay with the host. -/
def applyReset (s : State) : State :=
  { State.resetWith s.cfg with
    rst := s.rst
    pinPresent := s.pinPresent
    ioReady := s.ioReady
    rspReady := s.rspReady
    cmdIn := s.cmdIn
    events := (settleOffered s).events
    responses := s.responses }

end Machine

end Sys2Proof
end

