-- ==== Sys2Proof/Machine/Encoder.lean ====
section
/-! DEFINITION. The encoder family: ADDRPAT, SWA.ON, SWA.OFF, SWB.ON, SWB.OFF (41_encoder.md). -/

namespace Sys2Proof

namespace Machine

/-- A Type A switch command (R126, R127): validation first, whether or not the pin is there
(R157), then the codeword through the tri-state path (R134). -/
def switchA (ga : Nat) (ch : Int) (on : Bool) (s : State) : State :=
  match validA s.cfg.swaFaultOrder ga ch with
  | some e => raiseError e s
  | none => send (.tri (encA ga ch on)) s

/-- What an out-of-range Type B command does (R130, R136): never an error. -/
def invalidB (s : State) : State :=
  match s.cfg.typeBInvalid with
  | .noActivity => respond .ok s
  | .emptySend => send (.tri []) s

/-- A Type B switch command (R130, R131). -/
def switchB (ac cc : Int) (on : Bool) (s : State) : State :=
  match encB ac cc on with
  | some cw => send (.tri cw) s
  | none => invalidB s

/-- SWA.ON (R126). -/
def execSwaOn (ga : Nat) (ch : Int) (s : State) : Host.Outcome State Fault Refusal :=
  .next (switchA ga ch true s)

/-- SWA.OFF (R127). -/
def execSwaOff (ga : Nat) (ch : Int) (s : State) : Host.Outcome State Fault Refusal :=
  .next (switchA ga ch false s)

/-- SWB.ON (R130). -/
def execSwbOn (ac cc : Int) (s : State) : Host.Outcome State Fault Refusal :=
  .next (switchB ac cc true s)

/-- SWB.OFF (R131). -/
def execSwbOff (ac cc : Int) (s : State) : Host.Outcome State Fault Refusal :=
  .next (switchB ac cc false s)

/-- ADDRPAT (R122). A term of length 5 without five characters is no string (log entry 16). -/
def execAddrpat (plen : Nat) (pbits : List Bool) (s : State) : Host.Outcome State Fault Refusal :=
  if plen ≠ 5 then .next (raiseError .invalidAddress s)
  else if pbits.length ≠ 5 then .refused .malformedPattern
  else .next (respond (.okv (addressOf pbits)) s)

end Machine

end Sys2Proof
end

