-- ==== Sys2Proof/Machine/Protocol.lean ====
section
/-! DEFINITION. The protocol table family: SETPROTO.ROM and SETPROTO.TBL (40_protocol_table.md). -/

namespace Sys2Proof

namespace Machine

/-- SETPROTO.ROM (R104). A row outside 1..7 is a reserved encoding (R83 (c)). -/
def execSetprotoRom (k : Nat) (s : State) : Host.Outcome State Fault Refusal :=
  match rom k with
  | some p => .next (respond .ok (writeProto p s))
  | none => .refused .noRegistryRow

/-- SETPROTO.TBL (R105, R106). -/
def execSetprotoTbl (p : Proto) (s : State) : Host.Outcome State Fault Refusal :=
  if p.WellFormed then .next (respond .ok (writeProto p s)) else .refused .illFormedTable

end Machine

end Sys2Proof
end

