-- ==== Sys2Proof/Machine/Transmitter.lean ====
section
/-! DEFINITION. The transmitter family: SENDRAW and SENDTRI (42_transmitter.md). -/

namespace Sys2Proof

namespace Machine

/-- SENDRAW (R158). -/
def execSendraw (bits : List Bool) (s : State) : Host.Outcome State Fault Refusal :=
  .next (send (.raw bits) s)

/-- SENDTRI (R159). -/
def execSendtri (syms : List Sym3) (s : State) : Host.Outcome State Fault Refusal :=
  .next (send (.tri syms) s)

end Machine

end Sys2Proof
end

