-- ==== Sys2Proof/Machine/Dispatch.lean ====
section
/-! DEFINITION. The dispatch: one arm per command, each one direct call of its meaning. -/

namespace Sys2Proof

namespace Machine

-- The meaning of every command of the opcode table (R76).
def exec (i : Instr) (s : State) : Host.Outcome State Fault Refusal :=
  match i with
  | .setprotoRom k => Sys2Proof.Machine.execSetprotoRom k s
  | .setprotoTbl p => Sys2Proof.Machine.execSetprotoTbl p s
  | .sendraw bits => Sys2Proof.Machine.execSendraw bits s
  | .sendtri syms => Sys2Proof.Machine.execSendtri syms s
  | .swaOn ga ch => Sys2Proof.Machine.execSwaOn ga ch s
  | .swaOff ga ch => Sys2Proof.Machine.execSwaOff ga ch s
  | .swbOn ac cc => Sys2Proof.Machine.execSwbOn ac cc s
  | .swbOff ac cc => Sys2Proof.Machine.execSwbOff ac cc s
  | .addrpat plen pbits => Sys2Proof.Machine.execAddrpat plen pbits s

end Machine

end Sys2Proof
end

