-- ==== Sys2Proof/Machine/Control.lean ====
section
/-! DEFINITION. The control of the block: what it does in one step, and the state that makes it
run a given packet next. -/

namespace Sys2Proof

namespace Machine

/-- In IDLE (R35, R53): first the response on offer is handed over, and only with none on offer
is the next packet taken and run. -/
def idleStep (s : State) : Host.Outcome State Fault Refusal :=
  match s.rsp with
  | some r => .next (handResponse r s)
  | none =>
    match fetch s with
    | .waits t => .next t
    | .reserved e => .refused (.reserved e)
    | .command i t => exec i t

/-- One step of the block (R59, R160, R220): a reset before anything else, then the send in
progress, then commands. -/
def control (s : State) : Host.Outcome State Fault Refusal :=
  if s.rst then .next (applyReset s)
  else
    match s.seqState with
    | .transmitting => .next (transmitStep s)
    | .idle => idleStep s

/-- The block ready to take exactly these words next (R35): out of reset, IDLE, no response on
offer, no packet begun. -/
def readyFor (ws : List Word) (s : State) : State :=
  { s with rst := false, seqState := .idle, rsp := none, pkt := [], cmdIn := ws }

end Machine

end Sys2Proof
end

