-- ==== Sys2Proof/Machine/Step.lean ====
section
/-! DEFINITION. The step function, a run of steps, and the placing of a packet for the next
step. -/

namespace Sys2Proof

namespace Machine

/-- One step: one packet taken and run, one response handed over, one event completed, one wait,
or one reset (log entry 7). -/
def step (s : State) : Host.Outcome State Fault Refusal := control s

/-- `n` steps with the inputs as they stand, stopping at a refusal. -/
def steps : Nat → State → Host.Outcome State Fault Refusal
  | 0, s => .next s
  | n + 1, s =>
    match step s with
    | .next t => steps n t
    | .fault f => .fault f
    | .refused r => .refused r

/-- `s` with the packet whose bits are `w` on the command stream, where `step` takes its next
command (log entry 10). -/
def State.withFetchWord (s : State) (nbits w : Nat) : State := readyFor (tableWords nbits w) s

end Machine

end Sys2Proof
end

