-- ==== Sys2Proof/Machine/SourceOps.lean ====
section
/-! DEFINITION. The source's operations and their expansions into commands (30_encoding.md R87),
and the assembler form of a command (R86). -/

namespace Sys2Proof

namespace Machine

/-- The public operations of the source (R76, R87). -/
inductive SourceOp where
  /-- `switchOn(groupAddress, channel)`: the set as booleans from index 0, of any size, and an
  `int` (R77). -/
  | switchOnA (groupAddress : List Bool) (channel : Int)
  /-- `switchOff(groupAddress, channel)`. -/
  | switchOffA (groupAddress : List Bool) (channel : Int)
  /-- `switchOn(addressCode, channelCode)`. -/
  | switchOnB (addressCode channelCode : Int)
  /-- `switchOff(addressCode, channelCode)`. -/
  | switchOffB (addressCode channelCode : Int)
  /-- `send(bits)`. -/
  | sendBits (bits : List Bool)
  /-- `send(bitString)`. -/
  | sendString (bitString : List Char)
  /-- `sendTriState(codeword)`. -/
  | sendTriState (codeword : List Char)
  /-- `setProtocol(table)`. -/
  | setProtocol (table : Proto)
  /-- `addressFromPattern(pattern)`. -/
  | addressFromPattern (pattern : List Char)
deriving DecidableEq, Repr

/-- A character of `{'0','1'}` (R72); none outside the alphabet (U5, U18). -/
def bitOfChar : Char → Option Bool
  | '0' => some false
  | '1' => some true
  | _ => none

/-- A character of `{'0','1','F'}` (R72); none outside the alphabet (U5). -/
def symOfChar : Char → Option Sym3
  | '0' => some .s0
  | '1' => some .s1
  | 'F' => some .sF
  | _ => none

/-- The command an operation expands to (R87); none for a string outside the operation's
alphabet, which is refused (93_implementation_defined.md U5, U18). -/
def SourceOp.expand : SourceOp → Option Instr
  | .switchOnA groupAddress channel => some (.swaOn (natOfBits groupAddress) channel)
  | .switchOffA groupAddress channel => some (.swaOff (natOfBits groupAddress) channel)
  | .switchOnB addressCode channelCode => some (.swbOn addressCode channelCode)
  | .switchOffB addressCode channelCode => some (.swbOff addressCode channelCode)
  | .sendBits bits => some (.sendraw bits)
  | .sendString bitString => (bitString.mapM bitOfChar).map .sendraw
  | .sendTriState codeword => (codeword.mapM symOfChar).map .sendtri
  | .setProtocol table => some (.setprotoTbl table)
  | .addressFromPattern pattern =>
    (pattern.mapM bitOfChar).map fun bits => .addrpat bits.length (bits.take 16)

/-- The registry row that holds a table, if one does: `setProtocol` of it may be written
`SETPROTO.ROM k` (R87). -/
def registryIndex (p : Proto) : Option Nat :=
  [1, 2, 3, 4, 5, 6, 7].find? fun k => rom k == some p

/-! ### Assembler form (R86) -/

/-- The mnemonic of a command (R76). -/
def mnemonic : Instr → String
  | .setprotoRom _ => "SETPROTO.ROM"
  | .setprotoTbl _ => "SETPROTO.TBL"
  | .sendraw _ => "SENDRAW"
  | .sendtri _ => "SENDTRI"
  | .swaOn _ _ => "SWA.ON"
  | .swaOff _ _ => "SWA.OFF"
  | .swbOn _ _ => "SWB.ON"
  | .swbOff _ _ => "SWB.OFF"
  | .addrpat _ _ => "ADDRPAT"

/-- A bit string or a pattern, first character first. -/
def bitText (bits : List Bool) : String :=
  String.ofList (bits.map fun b => if b then '1' else '0')

/-- A codeword, first character first. -/
def symText (syms : List Sym3) : String :=
  String.ofList (syms.map fun
    | .s0 => '0'
    | .s1 => '1'
    | .sF => 'F')

/-- A number in decimal. -/
def numText (n : Nat) : String := toString n

/-- A channel or a code in decimal. -/
def intText (n : Int) : String := toString n

/-- A waveform as `(high,low)`. -/
def pairText (w : Waveform) : String :=
  "(" ++ numText w.high.toNat ++ "," ++ numText w.low.toNat ++ ")"

/-- The operands of a command as R86 writes them. -/
def operandText : Instr → String
  | .setprotoRom k => numText k
  | .setprotoTbl p =>
    numText p.pulseLength.toNat ++ ", " ++ pairText p.sync ++ ", " ++ pairText p.zero ++ ", " ++
      pairText p.one ++ ", " ++ numText p.inverted.toNat
  | .sendraw bits => "\"" ++ bitText bits ++ "\""
  | .sendtri syms => "\"" ++ symText syms ++ "\""
  | .swaOn ga ch => numText ga ++ ", " ++ intText ch
  | .swaOff ga ch => numText ga ++ ", " ++ intText ch
  | .swbOn ac cc => intText ac ++ ", " ++ intText cc
  | .swbOff ac cc => intText ac ++ ", " ++ intText cc
  | .addrpat _ pbits => "\"" ++ bitText pbits ++ "\""

/-- A command in the assembler form of R86. -/
def asm (i : Instr) : String := mnemonic i ++ " " ++ operandText i

end Machine

end Sys2Proof
end

