-- ==== Sys2Proof/Machine/Abstract.lean ====
section
/-! DEFINITION. The abstract level of the spec (00_scope.md R9, R12): a command as a term, its
whole effect at once, with no words, ports or sequencer. It is the big-step meaning of
42_transmitter.md R155, beside the machine and not under it, so that "the machine does this" is a
statement. -/

namespace Sys2Proof

namespace Machine

/-- What outlives a command (R39, R231): two registers, the pin's shadow, the observation. -/
structure Abs where
  proto : Proto
  repeatCount : Word
  pinLevel : Option Level
  events : List Event
  responses : List Resp
deriving DecidableEq, Repr

/-- What a state shows at the abstract level. -/
def State.abs (s : State) : Abs :=
  { proto := s.proto
    repeatCount := s.repeatCount
    pinLevel := s.pinLevel
    events := s.events
    responses := s.responses }

/-- The one response of a command (R35). -/
def Abs.answer (r : Resp) (a : Abs) : Abs := { a with responses := a.responses ++ [r] }

/-- `Send(mode, seq)` of R155 and R157, then `Respond(OK, 0)`. -/
def Abs.send (cfg : Config.Params) (pin : Bool) (b : Buf) (a : Abs) : Abs :=
  if pin then
    Abs.answer .ok
      { a with
        events := a.events ++ sendEvents cfg.idlePolicy a.proto a.repeatCount.toNat b
        pinLevel := some (idleLevel cfg.idlePolicy a.proto) }
  else a.answer .ok

/-- A Type A command (R126, R127). -/
def Abs.switchA (cfg : Config.Params) (pin : Bool) (ga : Nat) (ch : Int) (on : Bool) (a : Abs) :
    Abs :=
  match validA cfg.swaFaultOrder ga ch with
  | some e => a.answer (.err e)
  | none => a.send cfg pin (.tri (encA ga ch on))

/-- A Type B command (R130, R131). -/
def Abs.switchB (cfg : Config.Params) (pin : Bool) (ac cc : Int) (on : Bool) (a : Abs) : Abs :=
  match encB ac cc on, cfg.typeBInvalid with
  | some cw, _ => a.send cfg pin (.tri cw)
  | none, .noActivity => a.answer .ok
  | none, .emptySend => a.send cfg pin (.tri [])

/-- The whole effect of a command with the pin present or absent; none where it is refused
(R210). -/
def Abs.command (cfg : Config.Params) (pin : Bool) : Instr → Abs → Option Abs
  | .setprotoRom k, a => (rom k).map fun p => Abs.answer .ok { a with proto := p }
  | .setprotoTbl p, a => if p.WellFormed then some (Abs.answer .ok { a with proto := p }) else none
  | .sendraw bits, a => some (a.send cfg pin (.raw bits))
  | .sendtri syms, a => some (a.send cfg pin (.tri syms))
  | .swaOn ga ch, a => some (a.switchA cfg pin ga ch true)
  | .swaOff ga ch, a => some (a.switchA cfg pin ga ch false)
  | .swbOn ac cc, a => some (a.switchB cfg pin ac cc true)
  | .swbOff ac cc, a => some (a.switchB cfg pin ac cc false)
  | .addrpat plen pbits, a =>
    if plen ≠ 5 then some (a.answer (.err .invalidAddress))
    else if pbits.length ≠ 5 then none
    else some (a.answer (.okv (addressOf pbits)))

/-- A run (R231): a finite list of commands, one after another; a run with a refused command has
no result. -/
def Abs.commands (cfg : Config.Params) (pin : Bool) : List Instr → Abs → Option Abs
  | [], a => some a
  | i :: is, a =>
    match a.command cfg pin i with
    | some b => b.commands cfg pin is
    | none => none

end Machine

end Sys2Proof
end

