-- ==== Sys2Proof/Machine/Inputs.lean ====
section
/-! DEFINITION. What the outside does to the block between two steps (60_exceptions.md R207,
R208): the host writes words, takes responses and asserts reset, the collaborator completes
events and is present or absent. -/

namespace Sys2Proof

namespace Machine

/-- The inputs of one step, and the words the host has written since the last. -/
structure Sample where
  /-- `rst` (R35, R220). -/
  rst : Bool
  /-- `pin_present` (R32). -/
  pinPresent : Bool
  /-- `io_ready` (R33). -/
  ioReady : Bool
  /-- `rsp_ready` (R35). -/
  rspReady : Bool
  /-- Words written on the command stream, oldest first (R52). -/
  words : List Word
deriving DecidableEq, Repr

/-- The inputs as a sample sets them. Words are only ever added to the stream: "none is skipped,
duplicated or re-read" (R52). -/
def State.sample (s : State) (x : Sample) : State :=
  { s with
    rst := x.rst
    pinPresent := x.pinPresent
    ioReady := x.ioReady
    rspReady := x.rspReady
    cmdIn := s.cmdIn ++ x.words }

/-- A run under changing inputs: one step for each sample. -/
def runSamples : List Sample → State → Host.Outcome State Fault Refusal
  | [], s => .next s
  | x :: xs, s =>
    match step (s.sample x) with
    | .next t => runSamples xs t
    | .fault f => .fault f
    | .refused r => .refused r

end Machine

end Sys2Proof
end

