-- ==== Sys2Proof/Machine/Observation.lean ====
section
/-! DEFINITION. What the outside sees: the port signals (10_state.md R33, R35), the observation of
a run (R34), and the quantities read off an event list (42_transmitter.md R167, R173). -/

namespace Sys2Proof

namespace Machine

/-! ### Ports -/

/-- What the event port carries while `io_valid` is 1 (R33). -/
structure IoPort where
  kind : BitVec 2
  arg : Word
deriving DecidableEq, Repr

/-- `io_kind` (R33): never `0b11`. -/
def Event.kind : Event → BitVec 2
  | .set .low => 0b00
  | .set .high => 0b01
  | .delay _ => 0b10

/-- `io_arg` (R33): `n` of a `Delay(n)`, 0 for a `Set`. -/
def Event.arg : Event → Word
  | .set _ => 0
  | .delay n => n

/-- The port's signals for an event (R33). -/
def Event.onPort (e : Event) : IoPort := { kind := e.kind, arg := e.arg }

/-- The event port (R33); none is `io_valid = 0`, as always under reset (R220). -/
def ioPort (s : State) : Option IoPort := if s.rst then none else (offered s).map Event.onPort

/-- `rsp_valid` and `rsp_data` (R35, R82); under reset no response is offered (R220). -/
def rspPort (s : State) : Option Word := if s.rst then none else s.rsp.map Resp.word

/-- `cmd_ready` (R35): IDLE, the last response handed over, out of reset. -/
def cmdReady (s : State) : Bool := !s.rst && s.seqState == .idle && s.rsp == none

/-! ### The observation -/

/-- The observation of R34: the events completed and the responses returned, each in order. -/
def observation (s : State) : List Event × List Resp := (s.events, s.responses)

/-- The level of the last `Set` of a list, from a level before it (R31, R65). -/
def levelAfterAll (start : Option Level) (es : List Event) : Option Level :=
  es.foldl (fun l e => e.levelAfter l) start

/-- The argument of a `Delay` as a natural number, 0 for a `Set`. -/
def Event.micros : Event → Nat
  | .set _ => 0
  | .delay n => n.toNat

/-- The sum of the delays of an event list, with no width limit (R167). -/
def nominal (es : List Event) : Nat := (es.map Event.micros).sum

/-- The number of `Set` events of a list (R167). -/
def setCount (es : List Event) : Nat :=
  (es.filter fun e => match e with
    | .set _ => true
    | .delay _ => false).length

/-- The six durations of a table in the order of R107: zero, one, sync, each high then low. -/
def durations (p : Proto) : List Nat :=
  [dHigh p p.zero, dLow p p.zero, dHigh p p.one, dLow p p.one, dHigh p p.sync, dLow p p.sync]

/-! ### The waveform (R173) -/

/-- One segment of the continuous view: a level (unknown before the first `Set`) and how long. -/
structure Segment where
  level : Option Level
  micros : Nat
deriving DecidableEq, Repr

/-- A segment put in front of the rest: dropped if it lasts 0, merged with an equal level. -/
def Segment.before (g : Segment) (rest : List Segment) : List Segment :=
  if g.micros = 0 then rest
  else
    match rest with
    | [] => [g]
    | h :: t =>
      if g.level = h.level then { level := g.level, micros := g.micros + h.micros } :: t
      else g :: rest

/-- The event list folded into segments: during a `Delay(n)` the pin holds the level of the
latest `Set`; neighbours of equal level merge, segments of 0 drop (R173). -/
def waveform : Option Level → List Event → List Segment
  | _, [] => []
  | _, .set l :: es => waveform (some l) es
  | l, .delay n :: es => Segment.before { level := l, micros := n.toNat } (waveform l es)

end Machine

end Sys2Proof
end

