-- ==== Sys2Proof/Safety.lean ====
section
/-! DEFINITION. What a good state is, in the terms statements use: the invariants the spec's prose
gives the block. -/

namespace Sys2Proof

namespace Machine

/-- R25: `PROTO` holds a well-formed table, and so does the parameter a reset installs (R37). -/
abbrev State.TablesWellFormed (s : State) : Prop :=
  s.proto.WellFormed ∧ s.cfg.resetProto.WellFormed

/-- R30: in TRANSMITTING every counter is in its range, a second emission is one the slot has,
and `rep = R` leaves only the closing drive. -/
def State.PositionInRange (s : State) : Prop :=
  s.seqState = .transmitting →
    s.rep ≤ s.repeatCount ∧
    s.slot ≤ s.buf.len ∧
    (s.sub = .second → s.buf.twoEmissions s.slot = true) ∧
    (s.rep = s.repeatCount → s.slot = 0 ∧ s.sub = .first ∧ s.ph = .driveHigh)

/-- R35, R52: no command is begun and no response on offer while a send is in progress, no command
is begun while a response is on offer, and the words taken never make a whole packet. -/
def State.OneCommandAtATime (s : State) : Prop :=
  (s.seqState = .transmitting → s.rsp = none ∧ s.pkt = []) ∧
  (s.rsp ≠ none → s.pkt = []) ∧
  decode s.pkt = .more

/-- R65: between a drive and its delay's end the pin's shadow is the level of that drive. -/
def State.LevelInForce (s : State) : Prop :=
  s.seqState = .transmitting →
    match s.ph with
    | .driveHigh => True
    | .delayHigh => s.pinLevel = some (adjust s.proto true)
    | .driveLow => s.pinLevel = some (adjust s.proto true)
    | .delayLow => s.pinLevel = some (adjust s.proto false)

/-- R31: `PINLEVEL`, where it is known, is the level of the last `Set` handed over. -/
def State.ShadowIsLastSet (s : State) : Prop :=
  s.pinLevel = none ∨ s.pinLevel = levelAfterAll none s.events

/-- R195: no response is, or has been, InvalidPattern. -/
def State.NoInvalidPattern (s : State) : Prop :=
  s.rsp ≠ some (.err .invalidPattern) ∧ .err .invalidPattern ∉ s.responses

/-- The whole invariant of a run. -/
structure State.Good (s : State) : Prop where
  tables : s.TablesWellFormed
  position : s.PositionInRange
  oneAtATime : s.OneCommandAtATime
  levelInForce : s.LevelInForce
  shadow : s.ShadowIsLastSet
  responses : s.NoInvalidPattern

/-- Ready for a command (R37, R231): IDLE, nothing begun, nothing on offer, out of reset. -/
abbrev State.Ready (s : State) : Prop :=
  s.seqState = .idle ∧ s.rsp = none ∧ s.pkt = [] ∧ s.rst = false

/-- Host and collaborator do their duty at every step (R207, R208: the fairness assumption). -/
abbrev State.Responsive (s : State) : Prop := s.ioReady = true ∧ s.rspReady = true

/-- A send in progress at its first event (R161). -/
abbrev State.AtSendStart (s : State) : Prop :=
  s.seqState = .transmitting ∧ s.rep = 0 ∧ s.slot = 0 ∧ s.sub = .first ∧ s.ph = .driveHigh

/-- What a command may never change (R20, R27, R34): parameters, inputs, the observation, the
stream. -/
abbrev State.SameSurroundings (s t : State) : Prop :=
  t.cfg = s.cfg ∧ t.repeatCount = s.repeatCount ∧ t.rst = s.rst ∧ t.pinPresent = s.pinPresent ∧
  t.ioReady = s.ioReady ∧ t.rspReady = s.rspReady ∧ t.cmdIn = s.cmdIn ∧ t.pkt = s.pkt ∧
  t.pinLevel = s.pinLevel ∧ t.events = s.events ∧ t.responses = s.responses

/-- The sequencer's latch and position are as they were (R28, R29, R30). -/
abbrev State.SameSequencer (s t : State) : Prop :=
  t.seqState = s.seqState ∧ t.buf = s.buf ∧ t.rep = s.rep ∧ t.slot = s.slot ∧ t.sub = s.sub ∧
  t.ph = s.ph

end Machine

end Sys2Proof
end

