-- ==== Sys2Proof/Certificates/Slice0/Obligations.lean ====
section
/-! DEFINITION. The statements for the provers. Each docstring names the rule it formalises. -/

open Sys2Proof Sys2Proof.Machine

/-! ### The protocol table family -/

/-- R102: the registry holds exactly the seven rows of the source, and no other. -/
def Obligations.RegistryHoldsTheSevenRows : Prop :=
  rom 1 = some ⟨350, ⟨1, 31⟩, ⟨1, 3⟩, ⟨3, 1⟩, false⟩ ∧
  rom 2 = some ⟨650, ⟨1, 10⟩, ⟨1, 2⟩, ⟨2, 1⟩, false⟩ ∧
  rom 3 = some ⟨100, ⟨30, 71⟩, ⟨4, 11⟩, ⟨9, 6⟩, false⟩ ∧
  rom 4 = some ⟨380, ⟨1, 6⟩, ⟨1, 3⟩, ⟨3, 1⟩, false⟩ ∧
  rom 5 = some ⟨500, ⟨6, 14⟩, ⟨1, 2⟩, ⟨2, 1⟩, false⟩ ∧
  rom 6 = some ⟨450, ⟨23, 1⟩, ⟨1, 2⟩, ⟨2, 1⟩, true⟩ ∧
  rom 7 = some ⟨150, ⟨2, 62⟩, ⟨1, 6⟩, ⟨6, 1⟩, false⟩ ∧
  ∀ k, k = 0 ∨ 8 ≤ k → rom k = none

/-- R107: the six durations of every row (zero, one, sync, high then low), the largest of them,
and the row's well-formedness. -/
def Obligations.RegistryDurationsAndWellFormedness : Prop :=
  ∀ row ∈ ([(1, [350, 1050, 1050, 350, 350, 10850], 10850),
            (2, [650, 1300, 1300, 650, 650, 6500], 6500),
            (3, [400, 1100, 900, 600, 3000, 7100], 7100),
            (4, [380, 1140, 1140, 380, 380, 2280], 2280),
            (5, [500, 1000, 1000, 500, 3000, 7000], 7000),
            (6, [450, 900, 900, 450, 10350, 450], 10350),
            (7, [150, 900, 900, 150, 300, 9300], 9300)] : List (Nat × List Nat × Nat)),
    ∃ p, rom row.1 = some p ∧ durations p = row.2.1 ∧ (durations p).max? = some row.2.2 ∧
      p.WellFormed

/-- R104: SETPROTO.ROM of a registry row completes in every state: the row's eight fields go into
`PROTO`, the response is OK, nothing else changes, and SETPROTO.TBL of the row does the same. -/
def Obligations.SetprotoRomInstallsItsRow : Prop :=
  ∀ (k : Nat) (s : State), 1 ≤ k → k ≤ 7 →
    ∃ p, rom k = some p ∧
      exec (.setprotoRom k) s = .next { s with proto := p, rsp := some .ok } ∧
      exec (.setprotoTbl p) s = .next { s with proto := p, rsp := some .ok } ∧
      encode (.setprotoRom k) = [BitVec.ofNat 32 (0x10000000 + k)]

/-- R105, R106: SETPROTO.TBL of a well-formed table completes in every state and changes `PROTO`
and the response only; a table that is not well-formed is refused. -/
def Obligations.SetprotoTblInstallsAWellFormedTable : Prop :=
  ∀ (p : Proto) (s : State),
    (p.WellFormed → exec (.setprotoTbl p) s = .next { s with proto := p, rsp := some .ok }) ∧
    (¬ p.WellFormed → exec (.setprotoTbl p) s = .refused .illFormedTable)

/-- R25: the table in `PROTO`, and the one a reset would install, stay well-formed through every
step, whatever the commands and inputs. -/
def Obligations.TablesStayWellFormed : Prop :=
  ∀ s t : State, s.TablesWellFormed → step s = .next t → t.TablesWellFormed

/-! ### Levels, emissions, mappings -/

/-- R150: `adjust` is the exclusive or of inversion and nominal level, and both drives of an
emission go through it. -/
def Obligations.AdjustIsExclusiveOr : Prop :=
  (∀ (p : Proto) (nominal : Bool),
    adjust p nominal = if (p.inverted ^^ nominal) = true then .high else .low) ∧
  (∀ p : Proto, p.inverted = false → adjust p true = .high ∧ adjust p false = .low) ∧
  (∀ p : Proto, p.inverted = true → adjust p true = .low ∧ adjust p false = .high) ∧
  ∀ (p : Proto) (w : Waveform),
    phaseEvent p w .driveHigh = .set (adjust p true) ∧
    phaseEvent p w .driveLow = .set (adjust p false)

/-- R151: one emission is four events, each drive before its delay, the delays being the exact
products wherever these fit 32 bits. -/
def Obligations.EmissionIsFourEvents : Prop :=
  ∀ (p : Proto) (w : Waveform),
    p.pulseLength.toNat * w.high.toNat < 2 ^ 32 → p.pulseLength.toNat * w.low.toNat < 2 ^ 32 →
    ∃ dh dl : Word,
      emit p w = [.set (adjust p true), .delay dh, .set (adjust p false), .delay dl] ∧
      dh.toNat = p.pulseLength.toNat * w.high.toNat ∧
      dl.toNat = p.pulseLength.toNat * w.low.toNat

/-- R152: the tri-state mapping, each symbol two emissions. -/
def Obligations.TriStateSymbolsArePaired : Prop :=
  (∀ p : Proto,
    mapTri p .s0 = emit p p.zero ++ emit p p.zero ∧
    mapTri p .s1 = emit p p.one ++ emit p p.one ∧
    mapTri p .sF = emit p p.zero ++ emit p p.one) ∧
  (∀ (p : Proto) (x : Sym3), (mapTri p x).length = 8) ∧
  ∀ p : Proto, rom 1 = some p →
    mapTri p .s0 = [.set .high, .delay 350, .set .low, .delay 1050,
                    .set .high, .delay 350, .set .low, .delay 1050]

/-- R153: the raw mapping, one emission a symbol, and a codeword sends what the bit string sends in
which `'0'` is replaced by 00, `'1'` by 11 and `'F'` by 01. -/
def Obligations.CodewordSendsAsItsBitString : Prop :=
  (∀ p : Proto, mapRaw p true = emit p p.one ∧ mapRaw p false = emit p p.zero) ∧
  (∀ (p : Proto) (b : Bool), (mapRaw p b).length = 4) ∧
  (∀ p : Proto,
    mapTri p .s1 = mapRaw p true ++ mapRaw p true ∧
    mapTri p .s0 = mapRaw p false ++ mapRaw p false ∧
    mapTri p .sF = mapRaw p false ++ mapRaw p true) ∧
  ∀ (policy : Config.IdlePolicy) (p : Proto) (r : Nat) (syms : List Sym3),
    sendEvents policy p r (.tri syms) =
      sendEvents policy p r (.raw (syms.flatMap fun
        | .s0 => [false, false]
        | .s1 => [true, true]
        | .sF => [false, true]))

/-- R154, R155, R169, R170: a send is one pass after another with nothing between them, each pass
its symbols and then one sync emission, and at the end the closing drive alone. -/
def Obligations.SendUnrollsPassByPass : Prop :=
  ∀ (policy : Config.IdlePolicy) (p : Proto) (b : Buf),
    sendEvents policy p 0 b = [.set (idleLevel policy p)] ∧
    (∀ r, sendEvents policy p (r + 1) b = passEvents p b ++ sendEvents policy p r b) ∧
    passEvents p (.tri []) = emit p p.sync ∧ passEvents p (.raw []) = emit p p.sync ∧
    (∀ x xs, passEvents p (.tri (x :: xs)) = mapTri p x ++ passEvents p (.tri xs)) ∧
    (∀ x xs, passEvents p (.raw (x :: xs)) = mapRaw p x ++ passEvents p (.raw xs))

/-- R156: the closing drive is one event, physically low under `PHYS_LOW`, the nominal low under
`NOMINAL_LOW`; the two agree exactly for tables that are not inverted, so for every registry row
but row 6. -/
def Obligations.ClosingDriveByPolicy : Prop :=
  ∀ p : Proto,
    idleDrive .physLow p = [.set .low] ∧
    idleDrive .nominalLow p = [.set (adjust p false)] ∧
    (idleDrive .physLow p = idleDrive .nominalLow p ↔ p.inverted = false) ∧
    (∀ k, rom k = some p → (idleDrive .physLow p = idleDrive .nominalLow p ↔ k ≠ 6)) ∧
    ∀ (policy : Config.IdlePolicy) (r : Nat) (b : Buf),
      ∃ passes, sendEvents policy p r b = passes ++ idleDrive policy p

/-- R167: counts and sums of a send, for every table (the sums for every well-formed one). -/
def Obligations.CountsAndDurationsOfASend : Prop :=
  (∀ p : Proto,
    (∀ x, (mapTri p x).length = 8) ∧ (∀ b, (mapRaw p b).length = 4) ∧
    (p.WellFormed →
      nominal (mapTri p .s0) = 2 * dBoth p p.zero ∧ nominal (mapTri p .s1) = 2 * dBoth p p.one ∧
      nominal (mapTri p .sF) = dBoth p p.zero + dBoth p p.one ∧
      nominal (mapRaw p false) = dBoth p p.zero ∧ nominal (mapRaw p true) = dBoth p p.one)) ∧
  (∀ (policy : Config.IdlePolicy) (p : Proto) (r : Nat) (syms : List Sym3),
    (passEvents p (.tri syms)).length = 8 * syms.length + 4 ∧
    (sendEvents policy p r (.tri syms)).length = r * (8 * syms.length + 4) + 1 ∧
    setCount (sendEvents policy p r (.tri syms)) = r * (4 * syms.length + 2) + 1 ∧
    (p.WellFormed →
      nominal (sendEvents policy p r (.tri syms)) =
        r * ((syms.map fun x => nominal (mapTri p x)).sum + dBoth p p.sync))) ∧
  (∀ (policy : Config.IdlePolicy) (p : Proto) (r : Nat) (bits : List Bool),
    (passEvents p (.raw bits)).length = 4 * bits.length + 4 ∧
    (sendEvents policy p r (.raw bits)).length = r * (4 * bits.length + 4) + 1 ∧
    setCount (sendEvents policy p r (.raw bits)) = r * (2 * bits.length + 2) + 1 ∧
    (p.WellFormed →
      nominal (sendEvents policy p r (.raw bits)) =
        r * ((bits.map fun b => nominal (mapRaw p b)).sum + dBoth p p.sync))) ∧
  ∀ (k : Nat) (p : Proto), rom k = some p → dBoth p p.zero = dBoth p p.one

/-- R230: nominal durations under the registry rows: one waveform, a tri-state symbol, the sync, a
pass of any 12 symbols, and a switch command of ten passes. -/
def Obligations.RegistrySendDurations : Prop :=
  ∀ row ∈ ([(1, 1400, 11200, 44800, 448000), (2, 1950, 7150, 53950, 539500),
            (3, 1500, 10100, 46100, 461000), (4, 1520, 2660, 39140, 391400),
            (5, 1500, 10000, 46000, 460000), (6, 1350, 10800, 43200, 432000),
            (7, 1050, 9600, 34800, 348000)] : List (Nat × Nat × Nat × Nat × Nat)),
    ∃ p, rom row.1 = some p ∧
      dBoth p p.zero = row.2.1 ∧ dBoth p p.one = row.2.1 ∧ dBoth p p.sync = row.2.2.1 ∧
      (∀ b, nominal (mapRaw p b) = row.2.1) ∧ (∀ x, nominal (mapTri p x) = 2 * row.2.1) ∧
      nominal (emit p p.sync) = row.2.2.1 ∧
      ∀ (policy : Config.IdlePolicy) (syms : List Sym3), syms.length = 12 →
        nominal (passEvents p (.tri syms)) = row.2.2.2.1 ∧
        nominal (sendEvents policy p 10 (.tri syms)) = row.2.2.2.2

/-! ### The send commands and the sequencer -/

/-- R158, R161, R157: SENDRAW completes in every state. With the pin present the sequencer starts
at its first event with the bits latched in mode RAW; with the pin absent only the OK response is
put on offer. -/
def Obligations.SendrawStartsASend : Prop :=
  ∀ (bits : List Bool) (s : State),
    exec (.sendraw bits) s = .next
      (if s.pinPresent then
        { s with seqState := .transmitting, buf := .raw bits, rep := 0, slot := 0, sub := .first,
                 ph := .driveHigh }
      else { s with rsp := some .ok })

/-- R159, R161, R157: SENDTRI completes in every state, in mode TRI. -/
def Obligations.SendtriStartsASend : Prop :=
  ∀ (syms : List Sym3) (s : State),
    exec (.sendtri syms) s = .next
      (if s.pinPresent then
        { s with seqState := .transmitting, buf := .tri syms, rep := 0, slot := 0, sub := .first,
                 ph := .driveHigh }
      else { s with rsp := some .ok })

/-- R162: the emissions of a slot and the waveform at a position. -/
def Obligations.WaveAtAPosition : Prop :=
  (∀ (p : Proto) (bits : List Bool) (slot : Nat) (sub : Sub),
    (Buf.raw bits).twoEmissions slot = false ∧
    (slot = bits.length → (Buf.raw bits).wave p slot sub = p.sync) ∧
    (bits[slot]? = some true → (Buf.raw bits).wave p slot sub = p.one) ∧
    (bits[slot]? = some false → (Buf.raw bits).wave p slot sub = p.zero)) ∧
  ∀ (p : Proto) (syms : List Sym3) (slot : Nat) (sub : Sub),
    ((Buf.tri syms).twoEmissions slot = true ↔ slot < syms.length) ∧
    (slot = syms.length → (Buf.tri syms).wave p slot sub = p.sync) ∧
    (syms[slot]? = some .s0 → (Buf.tri syms).wave p slot sub = p.zero) ∧
    (syms[slot]? = some .s1 → (Buf.tri syms).wave p slot sub = p.one) ∧
    (syms[slot]? = some .sF → (Buf.tri syms).wave p slot .first = p.zero ∧
      (Buf.tri syms).wave p slot .second = p.one)

/-- R163, R164: with passes left and the collaborator done, a step hands over the event at the
position, moves `PINLEVEL` on a drive, advances the three nested loops, and changes nothing else. -/
def Obligations.SequencerEventStep : Prop :=
  ∀ s : State, s.rst = false → s.seqState = .transmitting → s.ioReady = true →
    s.rep < s.repeatCount →
    step s = .next
      (match s.ph with
      | .driveHigh =>
        { s with events := s.events ++ [.set (adjust s.proto true)]
                 pinLevel := some (adjust s.proto true), ph := .delayHigh }
      | .delayHigh =>
        { s with events := s.events ++
                   [.delay (delayArg s.proto.pulseLength (s.buf.wave s.proto s.slot s.sub).high)]
                 ph := .driveLow }
      | .driveLow =>
        { s with events := s.events ++ [.set (adjust s.proto false)]
                 pinLevel := some (adjust s.proto false), ph := .delayLow }
      | .delayLow =>
        let e := Event.delay
          (delayArg s.proto.pulseLength (s.buf.wave s.proto s.slot s.sub).low)
        if s.sub = .first ∧ s.buf.twoEmissions s.slot = true then
          { s with events := s.events ++ [e], ph := .driveHigh, sub := .second }
        else if s.slot < s.buf.len then
          { s with events := s.events ++ [e], ph := .driveHigh, sub := .first, slot := s.slot + 1 }
        else
          { s with events := s.events ++ [e], ph := .driveHigh, sub := .first, slot := 0
                   rep := s.rep + 1 })

/-- R165: with `rep = R` the step is the closing drive, back to IDLE, and the OK response; nothing
else changes but the latch and the position, which are meaningless in IDLE. -/
def Obligations.SequencerEndStep : Prop :=
  ∀ s : State, s.rst = false → s.seqState = .transmitting → s.ioReady = true →
    s.rep = s.repeatCount →
    ∃ t, step s = .next t ∧
      t = { s with events := s.events ++ [.set (idleLevel s.cfg.idlePolicy s.proto)]
                   pinLevel := some (idleLevel s.cfg.idlePolicy s.proto)
                   seqState := .idle
                   rsp := some .ok
                   buf := t.buf, rep := t.rep, slot := t.slot, sub := t.sub, ph := t.ph }

/-- R163, R208, R209: a send in progress never faults and never refuses, and while the
collaborator does not complete the offered event the step answers the same state. -/
def Obligations.SendWaitsForTheCollaborator : Prop :=
  ∀ s : State, s.rst = false → s.seqState = .transmitting →
    (∃ t, step s = .next t) ∧ (s.ioReady = false → step s = .next s)

/-- R166: from the start of a send, `R*(E*N + 4) + 1` steps with a collaborator that completes
every event hand over exactly `sendEvents` and leave the block in IDLE with OK on offer; nothing
else changes but the latch and the position, which are meaningless in IDLE. -/
def Obligations.SequencerAgreesWithSendEvents : Prop :=
  ∀ s : State, s.AtSendStart → s.rst = false → s.ioReady = true →
    ∃ t, steps (s.repeatCount.toNat * (s.buf.eventsPerSymbol * s.buf.len + 4) + 1) s = .next t ∧
      t = { s with events := s.events ++
                     sendEvents s.cfg.idlePolicy s.proto s.repeatCount.toNat s.buf
                   pinLevel := some (idleLevel s.cfg.idlePolicy s.proto)
                   seqState := .idle
                   rsp := some .ok
                   buf := t.buf, rep := t.rep, slot := t.slot, sub := t.sub, ph := t.ph }

/-- R59, R157, R171, R172, R208: whatever the host writes, whatever the strap does and however
slow the collaborator is, after `n` completed events a send has handed over the first `n` events
of `sendEvents`, gives no response before the last, and ends with it. That inputs change between
steps only is the model's grain (log entries 6 and 7). -/
def Obligations.SendIsTheSameUnderAnyInputs : Prop :=
  ∀ (s : State) (xs : List Sample), s.AtSendStart → (∀ x ∈ xs, x.rst = false) →
    let all := sendEvents s.cfg.idlePolicy s.proto s.repeatCount.toNat s.buf
    let n := (xs.filter fun x => x.ioReady).length
    (n < all.length →
      ∃ t, runSamples xs s = .next t ∧ t.seqState = .transmitting ∧
        t.events = s.events ++ all.take n ∧ t.rsp = s.rsp ∧ t.responses = s.responses ∧
        t.proto = s.proto ∧ t.repeatCount = s.repeatCount ∧ t.buf = s.buf) ∧
    (n + 1 = all.length → ∀ x : Sample, x.rst = false → x.ioReady = true →
      ∃ t, runSamples (xs ++ [x]) s = .next t ∧ t.seqState = .idle ∧
        t.events = s.events ++ all ∧ t.rsp = some .ok ∧ t.responses = s.responses ∧
        t.pinLevel = some (idleLevel s.cfg.idlePolicy s.proto))

/-- R62, R157, R223, R224: in TRANSMITTING a step does the same whatever the strap, the stream
and the response port hold, and leaves these as they are. -/
def Obligations.SendIgnoresHostAndStrap : Prop :=
  ∀ (s t : State) (pin ready : Bool) (ws : List Word),
    s.rst = false → s.seqState = .transmitting → step s = .next t →
    step { s with pinPresent := pin, rspReady := ready, cmdIn := ws } =
      .next { t with pinPresent := pin, rspReady := ready, cmdIn := ws }

/-- R160: IDLE goes to TRANSMITTING only by a send or switch command that found the pin present,
TRANSMITTING to IDLE only by the completed closing drive; there is no other transition but reset. -/
def Obligations.OnlySendsStartAndOnlyTheClosingDriveEnds : Prop :=
  ∀ s t : State, s.rst = false → step s = .next t →
    (s.seqState = .idle → t.seqState = .transmitting →
      s.rsp = none ∧ s.pinPresent = true ∧ t.AtSendStart ∧
      ∃ i rest, decode (s.pkt ++ s.cmdIn) = .command i rest ∧
        ((∃ bits, i = .sendraw bits) ∨ (∃ syms, i = .sendtri syms) ∨
          (∃ ga ch, i = .swaOn ga ch ∨ i = .swaOff ga ch) ∨
          (∃ ac cc, i = .swbOn ac cc ∨ i = .swbOff ac cc))) ∧
    (s.seqState = .transmitting → t.seqState = .idle →
      s.ioReady = true ∧ ¬ s.rep < s.repeatCount ∧ t.rsp = some .ok)

/-! ### The encoder family -/

/-- R126, R125, R134: SWA.ON with a channel of 1..5 and a 5-bit address completes in every state
as the tri-state send of its twelve symbols. -/
def Obligations.SwaOnSendsItsCodeword : Prop :=
  ∀ (ga : Nat) (ch : Int) (s : State), ga < 32 → 1 ≤ ch → ch ≤ 5 →
    exec (.swaOn ga ch) s = .next
      (if s.pinPresent then
        { s with
          seqState := .transmitting, rep := 0, slot := 0, sub := .first, ph := .driveHigh
          buf := .tri (([0, 1, 2, 3, 4].map fun i => if ga.testBit i then Sym3.s0 else Sym3.sF) ++
            (([0, 1, 2, 3, 4] : List Int).map fun j => if j = ch - 1 then Sym3.s0 else Sym3.sF) ++
            [Sym3.s0, Sym3.sF]) }
      else { s with rsp := some .ok })

/-- R127, R125, R134: SWA.OFF likewise, with the status symbols of "off". -/
def Obligations.SwaOffSendsItsCodeword : Prop :=
  ∀ (ga : Nat) (ch : Int) (s : State), ga < 32 → 1 ≤ ch → ch ≤ 5 →
    exec (.swaOff ga ch) s = .next
      (if s.pinPresent then
        { s with
          seqState := .transmitting, rep := 0, slot := 0, sub := .first, ph := .driveHigh
          buf := .tri (([0, 1, 2, 3, 4].map fun i => if ga.testBit i then Sym3.s0 else Sym3.sF) ++
            (([0, 1, 2, 3, 4] : List Int).map fun j => if j = ch - 1 then Sym3.s0 else Sym3.sF) ++
            [Sym3.sF, Sym3.s0]) }
      else { s with rsp := some .ok })

/-- R192, R193, R196, R157: SWA.ON and SWA.OFF raise InvalidChannel for an integer channel outside
1..5, a negative one among them (R77), and InvalidAddress for more than 5 significant bits, a set
with an index above 15 among them (R77), pin or no pin; with both bad the parameter
`SWA_FAULT_ORDER` decides. Only the response changes. -/
def Obligations.SwaRaisesOnBadOperands : Prop :=
  ∀ (ga : Nat) (ch : Int) (s : State) (i : Instr), i = .swaOn ga ch ∨ i = .swaOff ga ch →
    ((ch < 1 ∨ 5 < ch) → ga < 32 →
      exec i s = .next { s with rsp := some (.err .invalidChannel) }) ∧
    (1 ≤ ch → ch ≤ 5 → 32 ≤ ga →
      exec i s = .next { s with rsp := some (.err .invalidAddress) }) ∧
    ((ch < 1 ∨ 5 < ch) → 32 ≤ ga →
      (s.cfg.swaFaultOrder = .channelFirst →
        exec i s = .next { s with rsp := some (.err .invalidChannel) }) ∧
      (s.cfg.swaFaultOrder = .addressFirst →
        exec i s = .next { s with rsp := some (.err .invalidAddress) }))

/-- R130, R129, R134: SWB.ON with both codes in 1..4 completes in every state as the tri-state
send of its twelve symbols. -/
def Obligations.SwbOnSendsItsCodeword : Prop :=
  ∀ (ac cc : Int) (s : State), 1 ≤ ac → ac ≤ 4 → 1 ≤ cc → cc ≤ 4 →
    exec (.swbOn ac cc) s = .next
      (if s.pinPresent then
        { s with
          seqState := .transmitting, rep := 0, slot := 0, sub := .first, ph := .driveHigh
          buf := .tri (
            (([0, 1, 2, 3] : List Int).map fun j => if j = ac - 1 then Sym3.s0 else Sym3.sF) ++
            (([0, 1, 2, 3] : List Int).map fun j => if j = cc - 1 then Sym3.s0 else Sym3.sF) ++
            [Sym3.sF, Sym3.sF, Sym3.sF, Sym3.sF]) }
      else { s with rsp := some .ok })

/-- R131, R129, R134: SWB.OFF likewise, with the status symbol of "off". -/
def Obligations.SwbOffSendsItsCodeword : Prop :=
  ∀ (ac cc : Int) (s : State), 1 ≤ ac → ac ≤ 4 → 1 ≤ cc → cc ≤ 4 →
    exec (.swbOff ac cc) s = .next
      (if s.pinPresent then
        { s with
          seqState := .transmitting, rep := 0, slot := 0, sub := .first, ph := .driveHigh
          buf := .tri (
            (([0, 1, 2, 3] : List Int).map fun j => if j = ac - 1 then Sym3.s0 else Sym3.sF) ++
            (([0, 1, 2, 3] : List Int).map fun j => if j = cc - 1 then Sym3.s0 else Sym3.sF) ++
            [Sym3.sF, Sym3.sF, Sym3.sF, Sym3.s0]) }
      else { s with rsp := some .ok })

/-- R130, R131, R199: an integer Type B code outside 1..4, a negative one among them, is never an
error. Under `NO_ACTIVITY` only the OK response is put on offer; under `EMPTY_SEND` the command is
SENDTRI of the empty codeword. -/
def Obligations.SwbBadCodesAreSilent : Prop :=
  ∀ (ac cc : Int) (s : State) (i : Instr), i = .swbOn ac cc ∨ i = .swbOff ac cc →
    (ac < 1 ∨ 4 < ac ∨ cc < 1 ∨ 4 < cc) →
    (s.cfg.typeBInvalid = .noActivity → exec i s = .next { s with rsp := some .ok }) ∧
    (s.cfg.typeBInvalid = .emptySend → exec i s = exec (.sendtri []) s)

/-- R122: ADDRPAT of a five-character pattern completes in every state and answers the address
whose bit `i` is character `i`; only the response changes. -/
def Obligations.AddrpatParsesFiveCharacters : Prop :=
  ∀ (pbits : List Bool) (s : State), pbits.length = 5 →
    ∃ v : BitVec 5,
      exec (.addrpat 5 pbits) s = .next { s with rsp := some (.okv v) } ∧
      ∀ i, i < 5 → pbits[i]? = some (v.getLsbD i)

/-- R122, R193: ADDRPAT of a pattern of any other length raises InvalidAddress. -/
def Obligations.AddrpatRejectsOtherLengths : Prop :=
  ∀ (plen : Nat) (pbits : List Bool) (s : State), plen ≠ 5 →
    exec (.addrpat plen pbits) s = .next { s with rsp := some (.err .invalidAddress) }

/-- R132 (a), (b): the shape of both schemes' codewords, symbol by symbol. -/
def Obligations.CodewordShapes : Prop :=
  (∀ (ga : Nat) (ch : Int) (on : Bool), ga < 32 → 1 ≤ ch → ch ≤ 5 →
    (encA ga ch on).length = 12 ∧
    (∀ i, i < 5 → (encA ga ch on)[i]? = some (if ga.testBit i then .s0 else .sF)) ∧
    (∀ j : Nat, j < 5 → ((encA ga ch on)[5 + j]? = some .s0 ↔ (j : Int) = ch - 1)) ∧
    (encA ga ch on).drop 10 = (if on then [.s0, .sF] else [.sF, .s0]) ∧
    .s1 ∉ encA ga ch on) ∧
  ∀ (ac cc : Int) (on : Bool), 1 ≤ ac → ac ≤ 4 → 1 ≤ cc → cc ≤ 4 →
    ∃ cw, encB ac cc on = some cw ∧ cw.length = 12 ∧
      (∀ j : Nat, j < 4 → (cw[j]? = some .s0 ↔ (j : Int) = ac - 1)) ∧
      (∀ j : Nat, j < 4 → (cw[4 + j]? = some .s0 ↔ (j : Int) = cc - 1)) ∧
      cw.drop 8 = [.sF, .sF, .sF, if on then .sF else .s0] ∧
      .s1 ∉ cw

/-- R132 (c): a codeword determines its operands, in both schemes. -/
def Obligations.CodewordsDetermineTheirOperands : Prop :=
  (∀ ga ga' : Nat, ∀ ch ch' : Int, ∀ on on' : Bool, ga < 32 → 1 ≤ ch → ch ≤ 5 →
    ga' < 32 → 1 ≤ ch' → ch' ≤ 5 →
    encA ga ch on = encA ga' ch' on' → ga = ga' ∧ ch = ch' ∧ on = on') ∧
  ∀ ac cc ac' cc' : Int, ∀ on on' : Bool, ∀ cw : List Sym3,
    encB ac cc on = some cw → encB ac' cc' on' = some cw → ac = ac' ∧ cc = cc' ∧ on = on'

/-! ### All commands -/

/-- R194: a command that ends in an error writes no state and emits no event, whatever the pin
strap says; the response carries the code and `VAL` 0. -/
def Obligations.ErrorsLeaveNoTrace : Prop :=
  ∀ (i : Instr) (s t : State) (e : ErrorKind), s.rsp = none → exec i s = .next t →
    t.rsp = some (.err e) →
    t = { s with rsp := some (.err e) } ∧
    (∀ pin, exec i { s with pinPresent := pin } = .next { t with pinPresent := pin }) ∧
    (Resp.err e).code = e.code ∧ (Resp.err e).val = 0

/-- R20, R26, R27, R30: the frame of every command: parameters, inputs, streams, `REPEAT`, `PINLEVEL` and the
observation stay; `PROTO` changes only by a SETPROTO; the sequencer changes only by the start of a
send with the pin present, which writes nothing else. `exec` does not look
at the sequencer; `step` calls it in IDLE only (log entry 18). -/
def Obligations.CommandFrame : Prop :=
  ∀ (i : Instr) (s t : State), exec i s = .next t →
    s.SameSurroundings t ∧
    (t.proto = s.proto ∨
      (∃ k, i = .setprotoRom k ∧ rom k = some t.proto) ∨ i = .setprotoTbl t.proto) ∧
    (s.SameSequencer t ∨
      (s.pinPresent = true ∧ t.AtSendStart ∧ t.rsp = s.rsp ∧ t.proto = s.proto))

/-! ### Decoding and encoding -/

/-- R89: every well-formed command is decoded from its packet, whatever follows in the stream. -/
def Obligations.DecodeOfEncodeIsTheCommand : Prop :=
  ∀ (i : Instr) (rest : List Word), i.WellFormed → decode (encode i ++ rest) = .command i rest

/-- R89: what decodes to a command is that command's one packet, bit for bit: no bit is ignored.
The command is well-formed, or a SETPROTO.TBL whose table the meaning has yet to check (R106). -/
def Obligations.EncodeOfDecodeIsThePacket : Prop :=
  ∀ (ws rest : List Word) (i : Instr), decode ws = .command i rest →
    encode i ++ rest = ws ∧ (i.WellFormed ∨ ∃ p, i = .setprotoTbl p)

/-- R74: SENDRAW's bit `i` is bit `i mod 32` of payload word `floor(i/32)`, and the bits above the
last must be 0. -/
def Obligations.SendrawPayloadBits : Prop :=
  ∀ (h : Word) (ws rest : List Word) (bits : List Bool),
    opc h = 3 → field h 16 12 = 0 → ws.length = (field h 0 16 + 31) / 32 →
    (decode (h :: (ws ++ rest)) = .command (.sendraw bits) rest ↔
      bits.length = field h 0 16 ∧
      (∀ i, i < field h 0 16 → bits[i]? = some ((ws.getD (i / 32) 0).getLsbD (i % 32))) ∧
      ∀ i, field h 0 16 ≤ i → i < 32 * ws.length →
        (ws.getD (i / 32) 0).getLsbD (i % 32) = false)

/-- R75: SENDTRI's symbol `i` is the code in bits `2*(i mod 16)+1 : 2*(i mod 16)` of payload word
`floor(i/16)`, no code is `0b11`, and the pairs above the last must be 0. -/
def Obligations.SendtriPayloadSymbols : Prop :=
  ∀ (h : Word) (ws rest : List Word) (syms : List Sym3),
    opc h = 4 → field h 16 12 = 0 → ws.length = (field h 0 16 + 15) / 16 →
    (decode (h :: (ws ++ rest)) = .command (.sendtri syms) rest ↔
      syms.length = field h 0 16 ∧
      (∀ i, i < field h 0 16 →
        ∃ x, syms[i]? = some x ∧ field (ws.getD (i / 16) 0) (2 * (i % 16)) 2 = codeOfSym x) ∧
      ∀ i, field h 0 16 ≤ i → i < 16 * ws.length →
        field (ws.getD (i / 16) 0) (2 * (i % 16)) 2 = 0)

/-- A few packets written out in 95_test_vectors.md decode to the commands they stand for. -/
def Obligations.WrittenPacketsDecode : Prop :=
  decode [0x10000006] = .command (.setprotoRom 6) [] ∧
  decode [0x20000001, 0xC8, 1, 0x14, 1, 0, 0, 2] =
    .command (.setprotoTbl ⟨200, ⟨1, 20⟩, ⟨1, 0⟩, ⟨0, 2⟩, true⟩) [] ∧
  decode [0x30000004, 0xA] = .command (.sendraw [false, true, false, true]) [] ∧
  decode [0x40000003, 0x24] = .command (.sendtri [.s0, .s1, .sF]) [] ∧
  decode [0x5801001A] = .command (.swaOn 0x1A 1) [] ∧
  decode [0x5003001F] = .command (.swaOff 0x1F 3) [] ∧
  decode [0x68020300] = .command (.swbOn 2 3) [] ∧
  decode [0x60010400] = .command (.swbOff 1 4) [] ∧
  decode [0x7005001A] = .command (.addrpat 5 [false, true, false, true, true]) []

/-- R83: every reserved encoding, (a) to (f), makes the step a refusal, whatever part of the packet
was taken before. That the refusal comes as soon as the header is there, and its name, are the
model's (log entries 9 and 13). -/
def Obligations.ReservedEncodingsAreRefused : Prop :=
  ∀ (s : State) (h : Word) (ws rest : List Word), s.rst = false → s.seqState = .idle →
    s.rsp = none → s.pkt ++ s.cmdIn = h :: (ws ++ rest) →
    ((opc h = 0 ∨ 8 ≤ opc h) → step s = .refused (.reserved .reservedOpcode)) ∧
    ((opc h = 1 ∧ field h 4 24 ≠ 0) ∨ (opc h = 2 ∧ field h 1 27 ≠ 0) ∨
      ((opc h = 3 ∨ opc h = 4) ∧ field h 16 12 ≠ 0) ∨ (opc h = 5 ∧ field h 24 3 ≠ 0) ∨
      (opc h = 6 ∧ (field h 24 3 ≠ 0 ∨ field h 0 8 ≠ 0)) ∨ (opc h = 7 ∧ field h 24 4 ≠ 0) →
        step s = .refused (.reserved .reservedBits)) ∧
    (opc h = 1 → field h 4 24 = 0 → (field h 0 4 = 0 ∨ 8 ≤ field h 0 4) →
      step s = .refused (.reserved .reservedIndex)) ∧
    (opc h = 7 → field h 24 4 = 0 → (∃ i, i < 16 ∧ field h 16 8 ≤ i ∧ h.getLsbD i = true) →
      step s = .refused (.reserved .nonzeroPadding)) ∧
    (opc h = 3 → field h 16 12 = 0 → ws.length = (field h 0 16 + 31) / 32 →
      (∃ i, field h 0 16 ≤ i ∧ i < 32 * ws.length ∧
        (ws.getD (i / 32) 0).getLsbD (i % 32) = true) →
      step s = .refused (.reserved .nonzeroPadding)) ∧
    (opc h = 4 → field h 16 12 = 0 → ws.length = (field h 0 16 + 15) / 16 →
      (∃ i, field h 0 16 ≤ i ∧ i < 16 * ws.length ∧
        field (ws.getD (i / 16) 0) (2 * (i % 16)) 2 ≠ 0) →
      step s = .refused (.reserved .nonzeroPadding)) ∧
    (opc h = 4 → field h 16 12 = 0 → ws.length = (field h 0 16 + 15) / 16 →
      (∃ i, i < field h 0 16 ∧ field (ws.getD (i / 16) 0) (2 * (i % 16)) 2 = 3) →
      ∃ e, step s = .refused (.reserved e)) ∧
    ∀ p : Proto, h :: ws = encode (.setprotoTbl p) → ¬ p.WellFormed →
      step s = .refused .illFormedTable

/-- R83, R84, R210: nothing else is ever refused. A step refuses only in IDLE with no response on
offer, and only a reserved encoding or an ill-formed table. The names are the model's
(log entry 13). -/
def Obligations.NothingElseIsRefused : Prop :=
  ∀ (s : State) (r : Refusal), step s = .refused r →
    s.rst = false ∧ s.seqState = .idle ∧ s.rsp = none ∧
    ((∃ e, r = .reserved e ∧ decode (s.pkt ++ s.cmdIn) = .reserved e) ∨
      (r = .illFormedTable ∧ ∃ p rest,
        decode (s.pkt ++ s.cmdIn) = .command (.setprotoTbl p) rest ∧ ¬ p.WellFormed))

/-! ### Streams, responses, steps -/

/-- R52, R62: in IDLE with no response on offer, a step whose words hold a whole packet is the
decoded command, run with the packet taken and the words after it left in the stream. That this
is one step is the model's grain (log entry 7). -/
def Obligations.StepRunsTheDecodedCommand : Prop :=
  ∀ (s : State) (i : Instr) (rest : List Word), s.rst = false → s.seqState = .idle →
    s.rsp = none → decode (s.pkt ++ s.cmdIn) = .command i rest →
    step s = exec i { s with pkt := [], cmdIn := rest }

/-- R52: a packet whose words are not all there waits: the words are taken, in order, and nothing
else happens; the words that come later complete it. The latch that holds the
words is the model's (log entry 8). -/
def Obligations.PartialPacketWaits : Prop :=
  ∀ s : State, s.rst = false → s.seqState = .idle → s.rsp = none →
    ∀ (i : Instr) (sent unsent : List Word), i.WellFormed →
      s.pkt ++ s.cmdIn = sent → encode i = sent ++ unsent → unsent ≠ [] →
      step s = .next { s with pkt := sent, cmdIn := [] }

/-- R35, R53: a response on offer is handed over before any word is taken, and only when the host
takes it. That this is a step of its own is the model's grain (log entry 7). -/
def Obligations.ResponseBeforeTheNextCommand : Prop :=
  ∀ (s : State) (r : Resp), s.rst = false → s.seqState = .idle → s.rsp = some r →
    (s.rspReady = true →
      step s = .next { s with rsp := none, responses := s.responses ++ [r] }) ∧
    (s.rspReady = false → step s = .next s)

/-- R65, R53, R56: a step adds at most one event, the one on offer, and at most one response, the
one on offer; neither list ever loses or reorders an entry. The lists and the
grain of a step are the model's (log entries 7 and 12). -/
def Obligations.StepAddsAtMostOneEventAndOneResponse : Prop :=
  ∀ s t : State, step s = .next t →
    (t.events = s.events ∨ ∃ e, offered s = some e ∧ t.events = s.events ++ [e]) ∧
    (t.responses = s.responses ∨
      ∃ r, s.rsp = some r ∧ t.rsp = none ∧ t.responses = s.responses ++ [r])

/-- R26, R27: out of reset no step writes `REPEAT`, a parameter or an input, and `PROTO` changes
only in IDLE, by a SETPROTO packet. -/
def Obligations.OnlySetprotoWritesTheTable : Prop :=
  ∀ s t : State, s.rst = false → step s = .next t →
    t.repeatCount = s.repeatCount ∧ t.cfg = s.cfg ∧ t.rst = s.rst ∧
    t.pinPresent = s.pinPresent ∧ t.ioReady = s.ioReady ∧ t.rspReady = s.rspReady ∧
    (t.proto ≠ s.proto →
      s.seqState = .idle ∧ s.rsp = none ∧ t.rsp = some .ok ∧
      ∃ i rest, decode (s.pkt ++ s.cmdIn) = .command i rest ∧
        ((∃ k, i = .setprotoRom k) ∨ ∃ p, i = .setprotoTbl p))

/-- R59, R166, R231: for every list of well-formed commands on the stream, the machine, with host
and collaborator doing their duty, comes back to IDLE having consumed exactly their packets, with
registers, pin level, event list and response list as the abstract level gives them, one response
a command. The grain of a step is the model's (log entry 7). -/
def Obligations.CommandsRunAsTheAbstractLevelSays : Prop :=
  ∀ (s : State) (cmds : List Instr) (rest : List Word), s.Ready → s.Responsive →
    (∀ i ∈ cmds, i.WellFormed) → s.cmdIn = cmds.flatMap encode ++ rest →
    ∃ (n : Nat) (t : State), steps n s = .next t ∧ t.Ready ∧ t.cmdIn = rest ∧
      s.abs.commands s.cfg s.pinPresent cmds = some t.abs ∧
      t.responses.length = s.responses.length + cmds.length

/-! ### Reset and the invariant -/

/-- R37, R220: after reset `REPEAT` is 10, the block is IDLE, `PINLEVEL` is unknown, no response is
on offer and no event has been handed over; `PROTO` is the parameter `P_RESET_PROTOCOL`. That the
parameter is registry row 1 in `State.reset` is the model's choice (log entry 1). -/
def Obligations.ResetLeavesTheDocumentedState : Prop :=
  (∀ cfg : Config.Params,
    (State.resetWith cfg).proto = cfg.resetProto ∧
    (State.resetWith cfg).repeatCount = cfg.resetRepeat ∧
    (State.resetWith cfg).seqState = .idle ∧ (State.resetWith cfg).pinLevel = none ∧
    (State.resetWith cfg).rsp = none ∧ (State.resetWith cfg).events = []) ∧
  State.reset.repeatCount = 10 ∧ State.reset.seqState = .idle ∧ State.reset.pinLevel = none ∧
  State.reset.rsp = none ∧ State.reset.events = [] ∧ rom 1 = some State.reset.proto

/-- R221, R220: reset abandons whatever is in progress: completed events stay, the event on offer
may or may not be added, no closing drive and no response follow, and the registers are as after
reset. That a packet half taken is lost (`pkt` is empty), that `ioReady` decides the event on offer,
and that the stream and the two histories survive, is the model's choice (log entries 8, 11
and 12), not the spec's. -/
def Obligations.ResetAbandonsTheSend : Prop :=
  ∀ s : State, s.rst = true →
    ∃ t, step s = .next t ∧
      t.proto = s.cfg.resetProto ∧ t.repeatCount = s.cfg.resetRepeat ∧ t.seqState = .idle ∧
      t.pinLevel = none ∧ t.rsp = none ∧ t.pkt = [] ∧ t.responses = s.responses ∧
      t.cmdIn = s.cmdIn ∧ t.cfg = s.cfg ∧
      (s.seqState = .idle → t.events = s.events) ∧
      (s.ioReady = false → t.events = s.events) ∧
      (t.events = s.events ∨ ∃ e, offered s = some e ∧ t.events = s.events ++ [e])

/-- R25, R30, R31, R35, R65, R195: every step from a good state leads to a good state. What the
latch `pkt` may hold is the model's (log entry 8). -/
def Obligations.EveryStepKeepsTheGoodState : Prop :=
  ∀ s t : State, s.Good → step s = .next t → t.Good

/-- The state after reset is good, for every well-formed reset table. -/
def Obligations.ResetStateIsGood : Prop :=
  (∀ cfg : Config.Params, cfg.resetProto.WellFormed → (State.resetWith cfg).Good) ∧
  State.reset.Good

/-- R59, R195, R207, R208: from a good state every run, under any inputs the outside gives,
resets in mid-send among them, stays in good states. That inputs change
between steps only is the model's grain (log entries 6 and 7). -/
def Obligations.GoodUnderAnyInputs : Prop :=
  ∀ (s t : State) (xs : List Sample), s.Good → runSamples xs s = .next t → t.Good

/-! ### Ports, waveform, source operations -/

/-- R82: the response word's fields: `RC` in 31:28, `VAL` in 4:0, 0 between; `RC` is at most 3, and
`VAL` is the address of ADDRPAT's answer and 0 in every other response. -/
def Obligations.ResponseWordFields : Prop :=
  ∀ r : Resp,
    field r.word 28 4 = r.code ∧ field r.word 5 23 = 0 ∧ field r.word 0 5 = r.val.toNat ∧
    r.code ≤ 3 ∧ (r.code = 0 ↔ r = .ok ∨ ∃ v, r = .okv v) ∧
    (r.code = 1 ↔ r = .err .invalidChannel) ∧ (r.code = 2 ↔ r = .err .invalidAddress) ∧
    (r.code = 3 ↔ r = .err .invalidPattern) ∧ ((∀ v, r ≠ .okv v) → r.val = 0) ∧
    (∀ v, r = .okv v → r.val = v ∧ field r.word 0 5 = v.toNat) ∧
    ((∀ v, r ≠ .okv v) → field r.word 0 5 = 0)

/-- R35, R53, R220: the host's ports. Under reset no response is offered and no word is taken; out
of reset the response port shows the word of the response on offer, and `cmd_ready` is IDLE with
none on offer. A step takes words only with `cmd_ready`, and hands over only the response that the
port shows, when the host is ready for it; the port is empty after. The grain of a step and
the inputs held in the state are the model's (log entries 6 and 7). -/
def Obligations.HostPortsFollowTheHandshake : Prop :=
  (∀ s : State,
    (s.rst = true → rspPort s = none ∧ cmdReady s = false) ∧
    (s.rst = false →
      (∀ r, s.rsp = some r → rspPort s = some r.word) ∧ (s.rsp = none → rspPort s = none) ∧
      (cmdReady s = true ↔ s.seqState = .idle ∧ s.rsp = none))) ∧
  ∀ s t : State, step s = .next t →
    (t.cmdIn ≠ s.cmdIn → cmdReady s = true ∧ rspPort s = none) ∧
    (t.responses ≠ s.responses →
      ∃ r, rspPort s = some r.word ∧ s.rspReady = true ∧ t.responses = s.responses ++ [r] ∧
        rspPort t = none)

/-- R33, R220: the event port shows the event on offer, `io_kind` is never `0b11`, `io_arg` is 0 for
a drive, and nothing is offered in IDLE or under reset. -/
def Obligations.EventPortShowsTheOffer : Prop :=
  ∀ s : State,
    ((s.rst = true ∨ s.seqState = .idle) ↔ ioPort s = none) ∧
    ∀ io, ioPort s = some io →
      ∃ e, offered s = some e ∧ io.kind ≠ 0b11 ∧
        (e = .set .low ↔ io.kind = 0b00) ∧ (e = .set .high ↔ io.kind = 0b01) ∧
        ((∃ n, e = .delay n) ↔ io.kind = 0b10) ∧
        (∀ n, e = .delay n → io.arg = n) ∧ ((∀ n, e ≠ .delay n) → io.arg = 0)

/-- R173: folding an event list into segments keeps the total time, leaves no empty segment and no
two neighbours of one level. -/
def Obligations.WaveformKeepsTheTime : Prop :=
  ∀ (start : Option Level) (es : List Event),
    ((waveform start es).map Segment.micros).sum = nominal es ∧
    (∀ g ∈ waveform start es, g.micros ≠ 0) ∧
    (waveform start es).IsChain fun g h => g.level ≠ h.level

/-- R86, R122: the number a five-character pattern stands for as the `ga` operand of SWA is the
value ADDRPAT returns for it, a valid address. -/
def Obligations.PatternIsItsGroupAddress : Prop :=
  ∀ (pattern : List Char) (bits : List Bool) (s : State), pattern.mapM bitOfChar = some bits →
    pattern.length = 5 →
    ∃ v : BitVec 5,
      (SourceOp.addressFromPattern pattern).expand = some (.addrpat 5 bits) ∧
      exec (.addrpat 5 bits) s = .next { s with rsp := some (.okv v) } ∧
      (∀ ch, (SourceOp.switchOnA bits ch).expand = some (.swaOn v.toNat ch)) ∧ v.toNat < 32

/-- R87: `send(bitString)` is SENDRAW with bit `i` = 1 exactly where character `i` is `'1'`, and is
defined only for strings over `{'0','1'}`. -/
def Obligations.SendStringIsSendraw : Prop :=
  ∀ str : List Char,
    ((∀ c ∈ str, c = '0' ∨ c = '1') →
      (SourceOp.sendString str).expand = some (.sendraw (str.map fun c => c == '1'))) ∧
    ((∃ c ∈ str, c ≠ '0' ∧ c ≠ '1') → (SourceOp.sendString str).expand = none)

/-- R87, R104: where `setProtocol` of a table may be written SETPROTO.ROM, both commands do the
same. -/
def Obligations.SetProtocolByRowOrByTable : Prop :=
  ∀ (p : Proto) (k : Nat) (s : State), registryIndex p = some k →
    exec (.setprotoRom k) s = exec (.setprotoTbl p) s ∧
    exec (.setprotoTbl p) s = .next { s with proto := p, rsp := some .ok }
end

