-- ==== Sys2Proof/Laws/Decode.lean ====
section
/-! SUPPORT. The small lemmas of the fields, of the two packings and of the header: numbers back to
lists and lists back to numbers. -/

namespace Sys2Proof

/-! ### Bits -/

@[simp] theorem bitsOfNat_length (n v : Nat) : (bitsOfNat n v).length = n := by
  rw [bitsOfNat, List.length_map, List.length_range]

/-- Element `i` of the list is bit `i` of the number. -/
theorem bitsOfNat_getElem? {n i : Nat} (v : Nat) (h : i < n) :
    (bitsOfNat n v)[i]? = some (v.testBit i) := by
  rw [bitsOfNat, List.getElem?_map, List.getElem?_range h, Option.map_some]

theorem natOfBits_lt (bits : List Bool) : natOfBits bits < 2 ^ bits.length :=
  (BitVec.ofBoolListLE bits).isLt

/-- Bit `i` of the number is element `i` of the list, and 0 past the list's end. -/
theorem natOfBits_testBit (bits : List Bool) (i : Nat) :
    (natOfBits bits).testBit i = bits[i]?.getD false := by
  change (BitVec.ofBoolListLE bits).getLsbD i = _
  induction bits generalizing i with
  | nil => simp [BitVec.ofBoolListLE]
  | cons b tail tailBits =>
    rw [BitVec.ofBoolListLE, BitVec.getLsbD_concat]
    cases i <;> simp [tailBits]

theorem bitsOfNat_natOfBits (bits : List Bool) :
    bitsOfNat bits.length (natOfBits bits) = bits := by
  refine List.ext_getElem? fun i => ?_
  by_cases inside : i < bits.length
  · rw [bitsOfNat_getElem? _ inside, natOfBits_testBit]
    simp [inside]
  · rw [List.getElem?_eq_none (by simpa using inside), List.getElem?_eq_none (by omega)]

theorem natOfBits_bitsOfNat (n v : Nat) : natOfBits (bitsOfNat n v) = v % 2 ^ n := by
  refine Nat.eq_of_testBit_eq fun i => ?_
  rw [natOfBits_testBit, Nat.testBit_mod_two_pow]
  by_cases inside : i < n
  · rw [bitsOfNat_getElem? v inside]
    simp [inside]
  · rw [List.getElem?_eq_none (by simpa using inside)]
    simp [inside]

/-! ### Symbols -/

@[simp] theorem symOfCode_codeOfSym (x : Sym3) : symOfCode (codeOfSym x) = some x := by
  cases x <;> rfl

theorem codeOfSym_lt (x : Sym3) : codeOfSym x < 4 := by cases x <;> decide

theorem codeOfSym_of_symOfCode {n : Nat} {x : Sym3} (h : symOfCode n = some x) :
    codeOfSym x = n := by
  unfold symOfCode at h
  split at h <;> simp at h <;> subst h <;> rfl

theorem symsOfNat_length {n v : Nat} {xs : List Sym3} (h : symsOfNat n v = some xs) :
    xs.length = n := by
  induction n generalizing v xs with
  | zero =>
    obtain rfl := Option.some.inj h
    rfl
  | succ n ih =>
    simp only [symsOfNat] at h
    split at h
    · next x ys _ hys =>
      obtain rfl := Option.some.inj h
      simp [ih hys]
    · cases h

theorem natOfSyms_lt (xs : List Sym3) : natOfSyms xs < 4 ^ xs.length := by
  induction xs with
  | nil => simp [natOfSyms]
  | cons x xs ih =>
    have := codeOfSym_lt x
    simp only [natOfSyms, List.length_cons, pow_succ]
    omega

theorem symsOfNat_natOfSyms (xs : List Sym3) : symsOfNat xs.length (natOfSyms xs) = some xs := by
  induction xs with
  | nil => rfl
  | cons x xs ih =>
    have := codeOfSym_lt x
    have hm : (codeOfSym x + 4 * natOfSyms xs) % 4 = codeOfSym x := by omega
    have hd : (codeOfSym x + 4 * natOfSyms xs) / 4 = natOfSyms xs := by omega
    simp [natOfSyms, symsOfNat, hm, hd, ih]

theorem natOfSyms_symsOfNat {n v : Nat} {xs : List Sym3} (h : symsOfNat n v = some xs) :
    natOfSyms xs = v % 4 ^ n := by
  induction n generalizing v xs with
  | zero =>
    obtain rfl := Option.some.inj h
    simp [natOfSyms, Nat.mod_one]
  | succ n ih =>
    simp only [symsOfNat] at h
    split at h
    · next x ys hx hys =>
      obtain rfl := Option.some.inj h
      simp only [natOfSyms, ih hys, codeOfSym_of_symOfCode hx, pow_succ]
      rw [Nat.mul_comm (4 ^ n) 4, Nat.mod_mul]
    · cases h

/-! ### Packing -/

@[simp] theorem packRaw_length (n : Nat) (bs : List Bool) : (packRaw n bs).length = n := by
  induction n generalizing bs with
  | zero => rfl
  | succ n ih => simp [packRaw, ih]

@[simp] theorem packTri_length (n : Nat) (xs : List Sym3) : (packTri n xs).length = n := by
  induction n generalizing xs with
  | zero => rfl
  | succ n ih => simp [packTri, ih]

/-! ### Headers -/

/-- The value of a header whose fields stay below the opcode. -/
theorem header_toNat {op f : Nat} (ho : op < 16) (hf : f < 2 ^ 28) :
    (header op f).toNat = op * 2 ^ 28 + f := by
  simp only [header, BitVec.toNat_ofNat]
  exact Nat.mod_eq_of_lt (by omega)

theorem opc_header {op f : Nat} (ho : op < 16) (hf : f < 2 ^ 28) : opc (header op f) = op := by
  simp only [opc, field, header_toNat ho hf]
  omega

/-- A field of a header is the slice of the fields' number. -/
theorem field_header {op f lo len : Nat} (ho : op < 16) (hf : f < 2 ^ 28) :
    field (header op f) lo len = (op * 2 ^ 28 + f) / 2 ^ lo % 2 ^ len := by
  simp only [field, header_toNat ho hf]

end Sys2Proof
end

