-- ==== Sys2Proof/Laws/PerInstr.lean ====
section
/-! SUPPORT. Facts about the syntax of every command, one lemma per constructor. -/

namespace Sys2Proof

namespace Laws

/-- The packet of a well-formed command has a header that no rule reserves and exactly the payload
words that the header announces (R85, R89). -/
def PacketLength.Statement (i : Instr) : Prop :=
  i.WellFormed → ∃ h t, encode i = h :: t ∧ payloadWords h = .ok t.length

theorem PacketLength.setprotoRom (k : Nat) : PacketLength.Statement (.setprotoRom k) := by
  rintro ⟨h1, h7⟩
  refine ⟨_, _, rfl, ?_⟩
  have ho : opc (header 1 k) = 1 := opc_header (by omega) (by omega)
  have h4 : field (header 1 k) 4 24 = 0 := by
    rw [field_header (by omega) (by omega)]
    omega
  have h0 : field (header 1 k) 0 4 = k := by
    rw [field_header (by omega) (by omega)]
    omega
  simp only [payloadWords, ho, h4, h0]
  rw [if_neg (by simp), if_neg (by omega)]
  rfl

theorem PacketLength.setprotoTbl (p : Proto) : PacketLength.Statement (.setprotoTbl p) := by
  intro _
  refine ⟨_, _, rfl, ?_⟩
  cases p.inverted <;> rfl

theorem PacketLength.sendraw (bits : List Bool) : PacketLength.Statement (.sendraw bits) := by
  intro (h : bits.length ≤ 65535)
  refine ⟨_, _, rfl, ?_⟩
  have ho : opc (header 3 bits.length) = 3 := opc_header (by omega) (by omega)
  have h16 : field (header 3 bits.length) 16 12 = 0 := by
    rw [field_header (by omega) (by omega)]
    omega
  have h0 : field (header 3 bits.length) 0 16 = bits.length := by
    rw [field_header (by omega) (by omega)]
    omega
  simp only [payloadWords, ho, h16, h0]
  simp

theorem PacketLength.sendtri (syms : List Sym3) : PacketLength.Statement (.sendtri syms) := by
  intro (h : syms.length ≤ 65535)
  refine ⟨_, _, rfl, ?_⟩
  have ho : opc (header 4 syms.length) = 4 := opc_header (by omega) (by omega)
  have h16 : field (header 4 syms.length) 16 12 = 0 := by
    rw [field_header (by omega) (by omega)]
    omega
  have h0 : field (header 4 syms.length) 0 16 = syms.length := by
    rw [field_header (by omega) (by omega)]
    omega
  simp only [payloadWords, ho, h16, h0]
  simp

/-- Format A: both status values. -/
theorem payloadWords_formatA (s ga ch : Nat) (hs : s ≤ 1) (hg : ga < 2 ^ 16) (hc : ch < 2 ^ 8) :
    payloadWords (header 5 (s * 2 ^ 27 + ch * 2 ^ 16 + ga)) = .ok 0 := by
  have ho : opc (header 5 (s * 2 ^ 27 + ch * 2 ^ 16 + ga)) = 5 :=
    opc_header (by omega) (by omega)
  have h24 : field (header 5 (s * 2 ^ 27 + ch * 2 ^ 16 + ga)) 24 3 = 0 := by
    rw [field_header (by omega) (by omega)]
    omega
  simp only [payloadWords, ho, h24]
  rfl

theorem PacketLength.swaOn (ga : Nat) (ch : Int) :
    PacketLength.Statement (.swaOn ga ch) := by
  rintro ⟨hg, -, hc⟩
  refine ⟨_, _, rfl, ?_⟩
  have h := payloadWords_formatA 1 ga ch.toNat (by omega) hg (by omega)
  rwa [Nat.one_mul] at h

theorem PacketLength.swaOff (ga : Nat) (ch : Int) :
    PacketLength.Statement (.swaOff ga ch) := by
  rintro ⟨hg, -, hc⟩
  refine ⟨_, _, rfl, ?_⟩
  have h := payloadWords_formatA 0 ga ch.toNat (by omega) hg (by omega)
  rwa [Nat.zero_mul, Nat.zero_add] at h

/-- Format B: both status values. -/
theorem payloadWords_formatB (s ac cc : Nat) (hs : s ≤ 1) (ha : ac < 2 ^ 8) (hc : cc < 2 ^ 8) :
    payloadWords (header 6 (s * 2 ^ 27 + ac * 2 ^ 16 + cc * 2 ^ 8)) = .ok 0 := by
  have ho : opc (header 6 (s * 2 ^ 27 + ac * 2 ^ 16 + cc * 2 ^ 8)) = 6 :=
    opc_header (by omega) (by omega)
  have h24 : field (header 6 (s * 2 ^ 27 + ac * 2 ^ 16 + cc * 2 ^ 8)) 24 3 = 0 := by
    rw [field_header (by omega) (by omega)]
    omega
  have h0 : field (header 6 (s * 2 ^ 27 + ac * 2 ^ 16 + cc * 2 ^ 8)) 0 8 = 0 := by
    rw [field_header (by omega) (by omega)]
    omega
  simp only [payloadWords, ho, h24, h0]
  rfl

theorem PacketLength.swbOn (ac cc : Int) : PacketLength.Statement (.swbOn ac cc) := by
  rintro ⟨⟨-, ha⟩, -, hc⟩
  refine ⟨_, _, rfl, ?_⟩
  have h := payloadWords_formatB 1 ac.toNat cc.toNat (by omega) (by omega) (by omega)
  rwa [Nat.one_mul] at h

theorem PacketLength.swbOff (ac cc : Int) : PacketLength.Statement (.swbOff ac cc) := by
  rintro ⟨⟨-, ha⟩, -, hc⟩
  refine ⟨_, _, rfl, ?_⟩
  have h := payloadWords_formatB 0 ac.toNat cc.toNat (by omega) (by omega) (by omega)
  rwa [Nat.zero_mul, Nat.zero_add] at h

theorem PacketLength.addrpat (plen : Nat) (pbits : List Bool) :
    PacketLength.Statement (.addrpat plen pbits) := by
  rintro ⟨hp, hl⟩
  refine ⟨_, _, rfl, ?_⟩
  have hb : natOfBits pbits < 2 ^ min plen 16 := hl ▸ natOfBits_lt pbits
  have hle : 2 ^ min plen 16 ≤ 2 ^ 16 := Nat.pow_le_pow_right (by omega) (by omega)
  have ho : opc (header 7 (plen * 2 ^ 16 + natOfBits pbits)) = 7 :=
    opc_header (by omega) (by omega)
  have h24 : field (header 7 (plen * 2 ^ 16 + natOfBits pbits)) 24 4 = 0 := by
    rw [field_header (by omega) (by omega)]
    omega
  have h16 : field (header 7 (plen * 2 ^ 16 + natOfBits pbits)) 16 8 = plen := by
    rw [field_header (by omega) (by omega)]
    omega
  have h0 : field (header 7 (plen * 2 ^ 16 + natOfBits pbits)) 0 16 = natOfBits pbits := by
    rw [field_header (by omega) (by omega)]
    omega
  simp only [payloadWords, ho, h24, h16, h0, Nat.div_eq_of_lt hb]
  simp

end Laws

end Sys2Proof
end

