-- ==== Sys2Proof/Laws/State.lean ====
section
/-! SUPPORT. One lemma per field per update of the state, so that no later proof unfolds a record
update. -/

namespace Sys2Proof

namespace Machine

@[simp] theorem raiseError_eq_respond (e : ErrorKind) (s : State) :
    raiseError e s = respond (.err e) s := rfl

@[simp] theorem Event.levelAfter_set (l : Level) (x : Option Level) :
    (Event.set l).levelAfter x = some l := rfl

@[simp] theorem Event.levelAfter_delay (n : Word) (x : Option Level) :
    (Event.delay n).levelAfter x = x := rfl

/-! ### respond -/

@[simp] theorem respond_proto (r : Resp) (s : State) :
    (respond r s).proto = s.proto := rfl

@[simp] theorem respond_repeatCount (r : Resp) (s : State) :
    (respond r s).repeatCount = s.repeatCount := rfl

@[simp] theorem respond_seqState (r : Resp) (s : State) :
    (respond r s).seqState = s.seqState := rfl

@[simp] theorem respond_buf (r : Resp) (s : State) :
    (respond r s).buf = s.buf := rfl

@[simp] theorem respond_rep (r : Resp) (s : State) :
    (respond r s).rep = s.rep := rfl

@[simp] theorem respond_slot (r : Resp) (s : State) :
    (respond r s).slot = s.slot := rfl

@[simp] theorem respond_sub (r : Resp) (s : State) :
    (respond r s).sub = s.sub := rfl

@[simp] theorem respond_ph (r : Resp) (s : State) :
    (respond r s).ph = s.ph := rfl

@[simp] theorem respond_pinLevel (r : Resp) (s : State) :
    (respond r s).pinLevel = s.pinLevel := rfl

@[simp] theorem respond_pkt (r : Resp) (s : State) :
    (respond r s).pkt = s.pkt := rfl

@[simp] theorem respond_rsp (r : Resp) (s : State) :
    (respond r s).rsp = some r := rfl

@[simp] theorem respond_rst (r : Resp) (s : State) :
    (respond r s).rst = s.rst := rfl

@[simp] theorem respond_pinPresent (r : Resp) (s : State) :
    (respond r s).pinPresent = s.pinPresent := rfl

@[simp] theorem respond_ioReady (r : Resp) (s : State) :
    (respond r s).ioReady = s.ioReady := rfl

@[simp] theorem respond_rspReady (r : Resp) (s : State) :
    (respond r s).rspReady = s.rspReady := rfl

@[simp] theorem respond_cmdIn (r : Resp) (s : State) :
    (respond r s).cmdIn = s.cmdIn := rfl

@[simp] theorem respond_events (r : Resp) (s : State) :
    (respond r s).events = s.events := rfl

@[simp] theorem respond_responses (r : Resp) (s : State) :
    (respond r s).responses = s.responses := rfl

@[simp] theorem respond_cfg (r : Resp) (s : State) :
    (respond r s).cfg = s.cfg := rfl

/-! ### writeProto -/

@[simp] theorem writeProto_proto (p : Proto) (s : State) :
    (writeProto p s).proto = p := rfl

@[simp] theorem writeProto_repeatCount (p : Proto) (s : State) :
    (writeProto p s).repeatCount = s.repeatCount := rfl

@[simp] theorem writeProto_seqState (p : Proto) (s : State) :
    (writeProto p s).seqState = s.seqState := rfl

@[simp] theorem writeProto_buf (p : Proto) (s : State) :
    (writeProto p s).buf = s.buf := rfl

@[simp] theorem writeProto_rep (p : Proto) (s : State) :
    (writeProto p s).rep = s.rep := rfl

@[simp] theorem writeProto_slot (p : Proto) (s : State) :
    (writeProto p s).slot = s.slot := rfl

@[simp] theorem writeProto_sub (p : Proto) (s : State) :
    (writeProto p s).sub = s.sub := rfl

@[simp] theorem writeProto_ph (p : Proto) (s : State) :
    (writeProto p s).ph = s.ph := rfl

@[simp] theorem writeProto_pinLevel (p : Proto) (s : State) :
    (writeProto p s).pinLevel = s.pinLevel := rfl

@[simp] theorem writeProto_pkt (p : Proto) (s : State) :
    (writeProto p s).pkt = s.pkt := rfl

@[simp] theorem writeProto_rsp (p : Proto) (s : State) :
    (writeProto p s).rsp = s.rsp := rfl

@[simp] theorem writeProto_rst (p : Proto) (s : State) :
    (writeProto p s).rst = s.rst := rfl

@[simp] theorem writeProto_pinPresent (p : Proto) (s : State) :
    (writeProto p s).pinPresent = s.pinPresent := rfl

@[simp] theorem writeProto_ioReady (p : Proto) (s : State) :
    (writeProto p s).ioReady = s.ioReady := rfl

@[simp] theorem writeProto_rspReady (p : Proto) (s : State) :
    (writeProto p s).rspReady = s.rspReady := rfl

@[simp] theorem writeProto_cmdIn (p : Proto) (s : State) :
    (writeProto p s).cmdIn = s.cmdIn := rfl

@[simp] theorem writeProto_events (p : Proto) (s : State) :
    (writeProto p s).events = s.events := rfl

@[simp] theorem writeProto_responses (p : Proto) (s : State) :
    (writeProto p s).responses = s.responses := rfl

@[simp] theorem writeProto_cfg (p : Proto) (s : State) :
    (writeProto p s).cfg = s.cfg := rfl

/-! ### startSend -/

@[simp] theorem startSend_proto (b : Buf) (s : State) :
    (startSend b s).proto = s.proto := rfl

@[simp] theorem startSend_repeatCount (b : Buf) (s : State) :
    (startSend b s).repeatCount = s.repeatCount := rfl

@[simp] theorem startSend_seqState (b : Buf) (s : State) :
    (startSend b s).seqState = .transmitting := rfl

@[simp] theorem startSend_buf (b : Buf) (s : State) :
    (startSend b s).buf = b := rfl

@[simp] theorem startSend_rep (b : Buf) (s : State) :
    (startSend b s).rep = 0 := rfl

@[simp] theorem startSend_slot (b : Buf) (s : State) :
    (startSend b s).slot = 0 := rfl

@[simp] theorem startSend_sub (b : Buf) (s : State) :
    (startSend b s).sub = .first := rfl

@[simp] theorem startSend_ph (b : Buf) (s : State) :
    (startSend b s).ph = .driveHigh := rfl

@[simp] theorem startSend_pinLevel (b : Buf) (s : State) :
    (startSend b s).pinLevel = s.pinLevel := rfl

@[simp] theorem startSend_pkt (b : Buf) (s : State) :
    (startSend b s).pkt = s.pkt := rfl

@[simp] theorem startSend_rsp (b : Buf) (s : State) :
    (startSend b s).rsp = s.rsp := rfl

@[simp] theorem startSend_rst (b : Buf) (s : State) :
    (startSend b s).rst = s.rst := rfl

@[simp] theorem startSend_pinPresent (b : Buf) (s : State) :
    (startSend b s).pinPresent = s.pinPresent := rfl

@[simp] theorem startSend_ioReady (b : Buf) (s : State) :
    (startSend b s).ioReady = s.ioReady := rfl

@[simp] theorem startSend_rspReady (b : Buf) (s : State) :
    (startSend b s).rspReady = s.rspReady := rfl

@[simp] theorem startSend_cmdIn (b : Buf) (s : State) :
    (startSend b s).cmdIn = s.cmdIn := rfl

@[simp] theorem startSend_events (b : Buf) (s : State) :
    (startSend b s).events = s.events := rfl

@[simp] theorem startSend_responses (b : Buf) (s : State) :
    (startSend b s).responses = s.responses := rfl

@[simp] theorem startSend_cfg (b : Buf) (s : State) :
    (startSend b s).cfg = s.cfg := rfl

/-! ### complete -/

@[simp] theorem complete_proto (e : Event) (s : State) :
    (complete e s).proto = s.proto := rfl

@[simp] theorem complete_repeatCount (e : Event) (s : State) :
    (complete e s).repeatCount = s.repeatCount := rfl

@[simp] theorem complete_seqState (e : Event) (s : State) :
    (complete e s).seqState = s.seqState := rfl

@[simp] theorem complete_buf (e : Event) (s : State) :
    (complete e s).buf = s.buf := rfl

@[simp] theorem complete_rep (e : Event) (s : State) :
    (complete e s).rep = s.rep := rfl

@[simp] theorem complete_slot (e : Event) (s : State) :
    (complete e s).slot = s.slot := rfl

@[simp] theorem complete_sub (e : Event) (s : State) :
    (complete e s).sub = s.sub := rfl

@[simp] theorem complete_ph (e : Event) (s : State) :
    (complete e s).ph = s.ph := rfl

@[simp] theorem complete_pinLevel (e : Event) (s : State) :
    (complete e s).pinLevel = e.levelAfter s.pinLevel := rfl

@[simp] theorem complete_pkt (e : Event) (s : State) :
    (complete e s).pkt = s.pkt := rfl

@[simp] theorem complete_rsp (e : Event) (s : State) :
    (complete e s).rsp = s.rsp := rfl

@[simp] theorem complete_rst (e : Event) (s : State) :
    (complete e s).rst = s.rst := rfl

@[simp] theorem complete_pinPresent (e : Event) (s : State) :
    (complete e s).pinPresent = s.pinPresent := rfl

@[simp] theorem complete_ioReady (e : Event) (s : State) :
    (complete e s).ioReady = s.ioReady := rfl

@[simp] theorem complete_rspReady (e : Event) (s : State) :
    (complete e s).rspReady = s.rspReady := rfl

@[simp] theorem complete_cmdIn (e : Event) (s : State) :
    (complete e s).cmdIn = s.cmdIn := rfl

@[simp] theorem complete_events (e : Event) (s : State) :
    (complete e s).events = s.events ++ [e] := rfl

@[simp] theorem complete_responses (e : Event) (s : State) :
    (complete e s).responses = s.responses := rfl

@[simp] theorem complete_cfg (e : Event) (s : State) :
    (complete e s).cfg = s.cfg := rfl

/-! ### endSend -/

@[simp] theorem endSend_proto (s : State) :
    (endSend s).proto = s.proto := rfl

@[simp] theorem endSend_repeatCount (s : State) :
    (endSend s).repeatCount = s.repeatCount := rfl

@[simp] theorem endSend_seqState (s : State) :
    (endSend s).seqState = .idle := rfl

@[simp] theorem endSend_buf (s : State) :
    (endSend s).buf = s.buf := rfl

@[simp] theorem endSend_rep (s : State) :
    (endSend s).rep = s.rep := rfl

@[simp] theorem endSend_slot (s : State) :
    (endSend s).slot = s.slot := rfl

@[simp] theorem endSend_sub (s : State) :
    (endSend s).sub = s.sub := rfl

@[simp] theorem endSend_ph (s : State) :
    (endSend s).ph = s.ph := rfl

@[simp] theorem endSend_pinLevel (s : State) :
    (endSend s).pinLevel = some (idleLevel s.cfg.idlePolicy s.proto) := rfl

@[simp] theorem endSend_pkt (s : State) :
    (endSend s).pkt = s.pkt := rfl

@[simp] theorem endSend_rsp (s : State) :
    (endSend s).rsp = some .ok := rfl

@[simp] theorem endSend_rst (s : State) :
    (endSend s).rst = s.rst := rfl

@[simp] theorem endSend_pinPresent (s : State) :
    (endSend s).pinPresent = s.pinPresent := rfl

@[simp] theorem endSend_ioReady (s : State) :
    (endSend s).ioReady = s.ioReady := rfl

@[simp] theorem endSend_rspReady (s : State) :
    (endSend s).rspReady = s.rspReady := rfl

@[simp] theorem endSend_cmdIn (s : State) :
    (endSend s).cmdIn = s.cmdIn := rfl

@[simp] theorem endSend_events (s : State) :
    (endSend s).events = s.events ++ [closingEvent s] := rfl

@[simp] theorem endSend_responses (s : State) :
    (endSend s).responses = s.responses := rfl

@[simp] theorem endSend_cfg (s : State) :
    (endSend s).cfg = s.cfg := rfl

/-! ### applyReset -/

@[simp] theorem applyReset_proto (s : State) :
    (applyReset s).proto = s.cfg.resetProto := rfl

@[simp] theorem applyReset_repeatCount (s : State) :
    (applyReset s).repeatCount = s.cfg.resetRepeat := rfl

@[simp] theorem applyReset_seqState (s : State) :
    (applyReset s).seqState = .idle := rfl

@[simp] theorem applyReset_buf (s : State) :
    (applyReset s).buf = .raw [] := rfl

@[simp] theorem applyReset_rep (s : State) :
    (applyReset s).rep = 0 := rfl

@[simp] theorem applyReset_slot (s : State) :
    (applyReset s).slot = 0 := rfl

@[simp] theorem applyReset_sub (s : State) :
    (applyReset s).sub = .first := rfl

@[simp] theorem applyReset_ph (s : State) :
    (applyReset s).ph = .driveHigh := rfl

@[simp] theorem applyReset_pinLevel (s : State) :
    (applyReset s).pinLevel = none := rfl

@[simp] theorem applyReset_pkt (s : State) :
    (applyReset s).pkt = [] := rfl

@[simp] theorem applyReset_rsp (s : State) :
    (applyReset s).rsp = none := rfl

@[simp] theorem applyReset_rst (s : State) :
    (applyReset s).rst = s.rst := rfl

@[simp] theorem applyReset_pinPresent (s : State) :
    (applyReset s).pinPresent = s.pinPresent := rfl

@[simp] theorem applyReset_ioReady (s : State) :
    (applyReset s).ioReady = s.ioReady := rfl

@[simp] theorem applyReset_rspReady (s : State) :
    (applyReset s).rspReady = s.rspReady := rfl

@[simp] theorem applyReset_cmdIn (s : State) :
    (applyReset s).cmdIn = s.cmdIn := rfl

@[simp] theorem applyReset_events (s : State) :
    (applyReset s).events = (settleOffered s).events := rfl

@[simp] theorem applyReset_responses (s : State) :
    (applyReset s).responses = s.responses := rfl

@[simp] theorem applyReset_cfg (s : State) :
    (applyReset s).cfg = s.cfg := rfl

/-! ### readyFor -/

@[simp] theorem readyFor_proto (ws : List Word) (s : State) :
    (readyFor ws s).proto = s.proto := rfl

@[simp] theorem readyFor_repeatCount (ws : List Word) (s : State) :
    (readyFor ws s).repeatCount = s.repeatCount := rfl

@[simp] theorem readyFor_seqState (ws : List Word) (s : State) :
    (readyFor ws s).seqState = .idle := rfl

@[simp] theorem readyFor_buf (ws : List Word) (s : State) :
    (readyFor ws s).buf = s.buf := rfl

@[simp] theorem readyFor_rep (ws : List Word) (s : State) :
    (readyFor ws s).rep = s.rep := rfl

@[simp] theorem readyFor_slot (ws : List Word) (s : State) :
    (readyFor ws s).slot = s.slot := rfl

@[simp] theorem readyFor_sub (ws : List Word) (s : State) :
    (readyFor ws s).sub = s.sub := rfl

@[simp] theorem readyFor_ph (ws : List Word) (s : State) :
    (readyFor ws s).ph = s.ph := rfl

@[simp] theorem readyFor_pinLevel (ws : List Word) (s : State) :
    (readyFor ws s).pinLevel = s.pinLevel := rfl

@[simp] theorem readyFor_pkt (ws : List Word) (s : State) :
    (readyFor ws s).pkt = [] := rfl

@[simp] theorem readyFor_rsp (ws : List Word) (s : State) :
    (readyFor ws s).rsp = none := rfl

@[simp] theorem readyFor_rst (ws : List Word) (s : State) :
    (readyFor ws s).rst = false := rfl

@[simp] theorem readyFor_pinPresent (ws : List Word) (s : State) :
    (readyFor ws s).pinPresent = s.pinPresent := rfl

@[simp] theorem readyFor_ioReady (ws : List Word) (s : State) :
    (readyFor ws s).ioReady = s.ioReady := rfl

@[simp] theorem readyFor_rspReady (ws : List Word) (s : State) :
    (readyFor ws s).rspReady = s.rspReady := rfl

@[simp] theorem readyFor_cmdIn (ws : List Word) (s : State) :
    (readyFor ws s).cmdIn = ws := rfl

@[simp] theorem readyFor_events (ws : List Word) (s : State) :
    (readyFor ws s).events = s.events := rfl

@[simp] theorem readyFor_responses (ws : List Word) (s : State) :
    (readyFor ws s).responses = s.responses := rfl

@[simp] theorem readyFor_cfg (ws : List Word) (s : State) :
    (readyFor ws s).cfg = s.cfg := rfl

/-! ### State.sample -/

@[simp] theorem State.sample_proto (s : State) (x : Sample) :
    (s.sample x).proto = s.proto := rfl

@[simp] theorem State.sample_repeatCount (s : State) (x : Sample) :
    (s.sample x).repeatCount = s.repeatCount := rfl

@[simp] theorem State.sample_seqState (s : State) (x : Sample) :
    (s.sample x).seqState = s.seqState := rfl

@[simp] theorem State.sample_buf (s : State) (x : Sample) :
    (s.sample x).buf = s.buf := rfl

@[simp] theorem State.sample_rep (s : State) (x : Sample) :
    (s.sample x).rep = s.rep := rfl

@[simp] theorem State.sample_slot (s : State) (x : Sample) :
    (s.sample x).slot = s.slot := rfl

@[simp] theorem State.sample_sub (s : State) (x : Sample) :
    (s.sample x).sub = s.sub := rfl

@[simp] theorem State.sample_ph (s : State) (x : Sample) :
    (s.sample x).ph = s.ph := rfl

@[simp] theorem State.sample_pinLevel (s : State) (x : Sample) :
    (s.sample x).pinLevel = s.pinLevel := rfl

@[simp] theorem State.sample_pkt (s : State) (x : Sample) :
    (s.sample x).pkt = s.pkt := rfl

@[simp] theorem State.sample_rsp (s : State) (x : Sample) :
    (s.sample x).rsp = s.rsp := rfl

@[simp] theorem State.sample_rst (s : State) (x : Sample) :
    (s.sample x).rst = x.rst := rfl

@[simp] theorem State.sample_pinPresent (s : State) (x : Sample) :
    (s.sample x).pinPresent = x.pinPresent := rfl

@[simp] theorem State.sample_ioReady (s : State) (x : Sample) :
    (s.sample x).ioReady = x.ioReady := rfl

@[simp] theorem State.sample_rspReady (s : State) (x : Sample) :
    (s.sample x).rspReady = x.rspReady := rfl

@[simp] theorem State.sample_cmdIn (s : State) (x : Sample) :
    (s.sample x).cmdIn = s.cmdIn ++ x.words := rfl

@[simp] theorem State.sample_events (s : State) (x : Sample) :
    (s.sample x).events = s.events := rfl

@[simp] theorem State.sample_responses (s : State) (x : Sample) :
    (s.sample x).responses = s.responses := rfl

@[simp] theorem State.sample_cfg (s : State) (x : Sample) :
    (s.sample x).cfg = s.cfg := rfl

/-! ### The position -/

/-- `nextSlot` writes the slot, the emission and the pass count only (R164). -/
theorem nextSlot_eq_with_position (s : State) :
    nextSlot s = { s with rep := (nextSlot s).rep, slot := (nextSlot s).slot,
                          sub := (nextSlot s).sub, ph := (nextSlot s).ph } := by
  unfold nextSlot
  split <;> rfl

/-- `nextEmission` writes the position only (R164). -/
theorem nextEmission_eq_with_position (s : State) :
    nextEmission s = { s with rep := (nextEmission s).rep, slot := (nextEmission s).slot,
                              sub := (nextEmission s).sub, ph := (nextEmission s).ph } := by
  unfold nextEmission
  split
  · split
    · rfl
    · exact nextSlot_eq_with_position s
  · exact nextSlot_eq_with_position s

/-- `advance` writes the position only (R164). -/
theorem advance_eq_with_position (s : State) :
    advance s = { s with rep := (advance s).rep, slot := (advance s).slot,
                         sub := (advance s).sub, ph := (advance s).ph } := by
  unfold advance
  split
  · rfl
  · rfl
  · rfl
  · exact nextEmission_eq_with_position { s with ph := .driveHigh }

@[simp] theorem advance_proto (s : State) : (advance s).proto = s.proto := by
  rw [advance_eq_with_position]

@[simp] theorem advance_repeatCount (s : State) : (advance s).repeatCount = s.repeatCount := by
  rw [advance_eq_with_position]

@[simp] theorem advance_seqState (s : State) : (advance s).seqState = s.seqState := by
  rw [advance_eq_with_position]

@[simp] theorem advance_buf (s : State) : (advance s).buf = s.buf := by
  rw [advance_eq_with_position]

@[simp] theorem advance_pinLevel (s : State) : (advance s).pinLevel = s.pinLevel := by
  rw [advance_eq_with_position]

@[simp] theorem advance_pkt (s : State) : (advance s).pkt = s.pkt := by
  rw [advance_eq_with_position]

@[simp] theorem advance_rsp (s : State) : (advance s).rsp = s.rsp := by
  rw [advance_eq_with_position]

@[simp] theorem advance_rst (s : State) : (advance s).rst = s.rst := by
  rw [advance_eq_with_position]

@[simp] theorem advance_pinPresent (s : State) : (advance s).pinPresent = s.pinPresent := by
  rw [advance_eq_with_position]

@[simp] theorem advance_ioReady (s : State) : (advance s).ioReady = s.ioReady := by
  rw [advance_eq_with_position]

@[simp] theorem advance_rspReady (s : State) : (advance s).rspReady = s.rspReady := by
  rw [advance_eq_with_position]

@[simp] theorem advance_cmdIn (s : State) : (advance s).cmdIn = s.cmdIn := by
  rw [advance_eq_with_position]

@[simp] theorem advance_events (s : State) : (advance s).events = s.events := by
  rw [advance_eq_with_position]

@[simp] theorem advance_responses (s : State) : (advance s).responses = s.responses := by
  rw [advance_eq_with_position]

@[simp] theorem advance_cfg (s : State) : (advance s).cfg = s.cfg := by
  rw [advance_eq_with_position]

end Machine

end Sys2Proof
end

