-- ==== Sys2Proof/Laws/Table.lean ====
section
/-! SUPPORT. The small lemmas of the registry and of the delays. -/

namespace Sys2Proof

namespace Machine

/-- Every registry row is well-formed (R107). -/
theorem rom_wellFormed {k : Nat} {p : Proto} (h : rom k = some p) : p.WellFormed := by
  unfold rom at h
  split at h <;> first | (cases h; decide) | cases h

/-- The registry has a row for every number from 1 to 7 (R51). -/
theorem rom_of_range {k : Nat} (h1 : 1 ≤ k) (h7 : k ≤ 7) : ∃ p, rom k = some p := by
  obtain rfl | rfl | rfl | rfl | rfl | rfl | rfl :
    k = 1 ∨ k = 2 ∨ k = 3 ∨ k = 4 ∨ k = 5 ∨ k = 6 ∨ k = 7 := by omega
  all_goals exact ⟨_, rfl⟩

/-- A delay whose product fits is the exact product (R174). -/
theorem delayArg_toNat {a m : Word} (h : a.toNat * m.toNat < 2 ^ 32) :
    (delayArg a m).toNat = a.toNat * m.toNat := by
  rw [delayArg, if_pos h, BitVec.toNat_ofNat, Nat.mod_eq_of_lt h]

@[simp] theorem emit_length (p : Proto) (w : Waveform) : (emit p w).length = 4 := rfl

@[simp] theorem mapTri_length (p : Proto) (x : Sym3) : (mapTri p x).length = 8 := by
  cases x <;> rfl

@[simp] theorem mapRaw_length (p : Proto) (b : Bool) : (mapRaw p b).length = 4 := rfl

@[simp] theorem repeated_zero {α : Type} (l : List α) : repeated 0 l = [] := rfl

@[simp] theorem repeated_succ {α : Type} (n : Nat) (l : List α) :
    repeated (n + 1) l = l ++ repeated n l := by
  simp [repeated, List.replicate_succ]

end Machine

end Sys2Proof
end

