-- ==== Sys2Proof/Laws/Step.lean ====
section
/-! SUPPORT. What each shared operation can do, said once: later proofs cite these and do not
unfold `step`, `control`, `fetch`, `send` or `transmitStep`. -/

namespace Sys2Proof

namespace Machine

/-! ### The shared operations -/

/-- A send either starts, with the pin present, or answers at once (R155, R157). -/
theorem send_cases (b : Buf) (s : State) :
    (s.pinPresent = true ∧ send b s = startSend b s) ∨
    (s.pinPresent = false ∧ send b s = respond .ok s) := by
  unfold send
  cases h : s.pinPresent
  · exact .inr ⟨rfl, by simp⟩
  · exact .inl ⟨rfl, by simp⟩

/-- A fetch waits, refuses or delivers, as the stream decodes (R52). -/
theorem fetch_cases (s : State) :
    (decode (s.pkt ++ s.cmdIn) = .more ∧
      fetch s = .waits { s with pkt := s.pkt ++ s.cmdIn, cmdIn := [] }) ∨
    (∃ e, decode (s.pkt ++ s.cmdIn) = .reserved e ∧ fetch s = .reserved e) ∨
    (∃ i rest, decode (s.pkt ++ s.cmdIn) = .command i rest ∧
      fetch s = .command i { s with pkt := [], cmdIn := rest }) := by
  unfold fetch
  cases h : decode (s.pkt ++ s.cmdIn) with
  | more => exact .inl ⟨rfl, rfl⟩
  | reserved e => exact .inr (.inl ⟨e, rfl, rfl⟩)
  | command i rest => exact .inr (.inr ⟨i, rest, rfl, rfl⟩)

/-- In TRANSMITTING the block waits, hands over an event, or ends the send (R163, R165, R208). -/
theorem transmitStep_cases (s : State) :
    (s.ioReady = false ∧ transmitStep s = s) ∨
    (s.ioReady = true ∧ s.passesLeft ∧ transmitStep s = eventStep s) ∨
    (s.ioReady = true ∧ ¬ s.passesLeft ∧ transmitStep s = endSend s) := by
  unfold transmitStep
  cases hr : s.ioReady
  · exact .inl ⟨rfl, by simp⟩
  · by_cases hp : s.passesLeft
    · exact .inr (.inl ⟨rfl, hp, by simp [hp]⟩)
    · exact .inr (.inr ⟨rfl, hp, by simp [hp]⟩)

/-- The six ways the position advances (R164): within an emission, to the second emission of a
slot, to the next slot, to the next pass. -/
theorem advance_cases (s : State) :
    (s.ph = .driveHigh ∧ advance s = { s with ph := .delayHigh }) ∨
    (s.ph = .delayHigh ∧ advance s = { s with ph := .driveLow }) ∨
    (s.ph = .driveLow ∧ advance s = { s with ph := .delayLow }) ∨
    (s.ph = .delayLow ∧ s.sub = .first ∧ s.buf.twoEmissions s.slot = true ∧
      advance s = { s with ph := .driveHigh, sub := .second }) ∨
    (s.ph = .delayLow ∧ ¬(s.sub = .first ∧ s.buf.twoEmissions s.slot = true) ∧
      s.slot < s.buf.len ∧
      advance s = { s with ph := .driveHigh, sub := .first, slot := s.slot + 1 }) ∨
    (s.ph = .delayLow ∧ ¬(s.sub = .first ∧ s.buf.twoEmissions s.slot = true) ∧
      ¬ s.slot < s.buf.len ∧
      advance s = { s with ph := .driveHigh, sub := .first, slot := 0, rep := s.rep + 1 }) := by
  unfold advance
  obtain ⟨ph, hph⟩ : ∃ ph, s.ph = ph := ⟨_, rfl⟩
  cases ph with
  | driveHigh => simp [hph]
  | delayHigh => simp [hph]
  | driveLow => simp [hph]
  | delayLow =>
    refine .inr (.inr (.inr ?_))
    obtain ⟨sub, hsub⟩ : ∃ sub, s.sub = sub := ⟨_, rfl⟩
    by_cases htwo : s.buf.twoEmissions s.slot = true
    · cases sub with
      | first => exact .inl ⟨hph, hsub, htwo, by simp [hph, nextEmission, hsub, htwo]⟩
      | second =>
        by_cases hslot : s.slot < s.buf.len
        · exact .inr (.inl ⟨hph, by simp [hsub], hslot, by
            simp [hph, nextEmission, nextSlot, hsub, hslot]⟩)
        · exact .inr (.inr ⟨hph, by simp [hsub], hslot, by
            simp [hph, nextEmission, nextSlot, hsub, hslot]⟩)
    · by_cases hslot : s.slot < s.buf.len
      · exact .inr (.inl ⟨hph, by simp [htwo], hslot, by
          cases sub <;> simp [hph, nextEmission, nextSlot, hsub, htwo, hslot]⟩)
      · exact .inr (.inr ⟨hph, by simp [htwo], hslot, by
          cases sub <;> simp [hph, nextEmission, nextSlot, hsub, htwo, hslot]⟩)

/-- Handing a response over, or waiting for the host (R35, R53). -/
theorem handResponse_cases (r : Resp) (s : State) :
    (s.rspReady = true ∧
      handResponse r s = { s with rsp := none, responses := s.responses ++ [r] }) ∨
    (s.rspReady = false ∧ handResponse r s = s) := by
  unfold handResponse
  cases h : s.rspReady
  · exact .inr ⟨rfl, by simp⟩
  · exact .inl ⟨rfl, by simp⟩

/-- At a reset the event on offer is completed or it is not (R221). -/
theorem settleOffered_events (s : State) :
    (settleOffered s).events = s.events ∨
    ∃ e, offered s = some e ∧ (settleOffered s).events = s.events ++ [e] := by
  unfold settleOffered
  split
  · next e h =>
    split
    · exact .inr ⟨e, h, rfl⟩
    · exact .inl rfl
  · exact .inl rfl

/-! ### A command -/

/-- A command that answers a next state installs a table, starts a send or only responds; a
switch command does one of the last two (R104 to R158). -/
theorem exec_cases {i : Instr} {s t : State} (h : exec i s = .next t) :
    (∃ p, p.WellFormed ∧ t = respond .ok (writeProto p s)) ∨
    (∃ b, s.pinPresent = true ∧ t = startSend b s) ∨
    (∃ r, r ≠ .err .invalidPattern ∧ t = respond r s) := by
  have ofSend : ∀ b, send b s = t →
      (∃ p, Proto.WellFormed p ∧ t = respond .ok (writeProto p s)) ∨
      (∃ b, s.pinPresent = true ∧ t = startSend b s) ∨
      (∃ r, r ≠ .err .invalidPattern ∧ t = respond r s) := by
    rintro b rfl
    rcases send_cases b s with ⟨hp, hs⟩ | ⟨-, hs⟩
    · exact .inr (.inl ⟨b, hp, hs⟩)
    · exact .inr (.inr ⟨.ok, by simp, hs⟩)
  have ofA : ∀ ga ch on, switchA ga ch on s = t →
      (∃ p, Proto.WellFormed p ∧ t = respond .ok (writeProto p s)) ∨
      (∃ b, s.pinPresent = true ∧ t = startSend b s) ∨
      (∃ r, r ≠ .err .invalidPattern ∧ t = respond r s) := by
    intro ga ch on hA
    unfold switchA at hA
    split at hA
    · next e he =>
      refine .inr (.inr ⟨.err e, ?_, hA.symm⟩)
      rintro ⟨⟩
      unfold validA at he
      split at he <;> split at he <;> (try split at he) <;> simp at he
    · exact ofSend _ hA
  have ofB : ∀ ac cc on, switchB ac cc on s = t →
      (∃ p, Proto.WellFormed p ∧ t = respond .ok (writeProto p s)) ∨
      (∃ b, s.pinPresent = true ∧ t = startSend b s) ∨
      (∃ r, r ≠ .err .invalidPattern ∧ t = respond r s) := by
    intro ac cc on hB
    unfold switchB invalidB at hB
    split at hB
    · exact ofSend _ hB
    · split at hB
      · exact .inr (.inr ⟨.ok, by simp, hB.symm⟩)
      · exact ofSend _ hB
  cases i with
  | setprotoRom k =>
    simp only [exec, execSetprotoRom] at h
    split at h
    · next p hp =>
      exact .inl ⟨p, rom_wellFormed hp, (Host.Outcome.next.inj h).symm⟩
    · cases h
  | setprotoTbl p =>
    simp only [exec, execSetprotoTbl] at h
    split at h
    · next hp => exact .inl ⟨p, hp, (Host.Outcome.next.inj h).symm⟩
    · cases h
  | sendraw bits => exact ofSend _ (Host.Outcome.next.inj h)
  | sendtri syms => exact ofSend _ (Host.Outcome.next.inj h)
  | swaOn ga ch => exact ofA _ _ _ (Host.Outcome.next.inj h)
  | swaOff ga ch => exact ofA _ _ _ (Host.Outcome.next.inj h)
  | swbOn ac cc => exact ofB _ _ _ (Host.Outcome.next.inj h)
  | swbOff ac cc => exact ofB _ _ _ (Host.Outcome.next.inj h)
  | addrpat plen pbits =>
    simp only [exec, execAddrpat] at h
    split at h
    · exact .inr (.inr ⟨.err .invalidAddress, by simp, (Host.Outcome.next.inj h).symm⟩)
    · split at h
      · cases h
      · exact .inr (.inr ⟨.okv (addressOf pbits), by simp, (Host.Outcome.next.inj h).symm⟩)

/-! ### The pass counter -/

/-- Passes are left while `SEQ.rep` is below `R`, both read as numbers (R10, R30). -/
theorem passesLeft_iff (s : State) : s.passesLeft ↔ s.rep.toNat < s.repeatCount.toNat :=
  BitVec.lt_def

/-- With a pass left, completing it does not wrap the 32-bit counter (R30, R164). -/
theorem rep_succ_toNat {s : State} (h : s.passesLeft) : (s.rep + 1).toNat = s.rep.toNat + 1 := by
  have below := (passesLeft_iff s).1 h
  have bound := s.repeatCount.isLt
  have one : (1 : Word).toNat = 1 := rfl
  rw [BitVec.toNat_add, one]
  exact Nat.mod_eq_of_lt (by omega)

/-! ### A step -/

/-- Everything a step that answers a next state can be (log entry 7). -/
theorem step_cases {s t : State} (h : step s = .next t) :
    (s.rst = true ∧ t = applyReset s) ∨
    (s.rst = false ∧ s.seqState = .transmitting ∧ t = transmitStep s) ∨
    (s.rst = false ∧ s.seqState = .idle ∧ ∃ r, s.rsp = some r ∧ t = handResponse r s) ∨
    (s.rst = false ∧ s.seqState = .idle ∧ s.rsp = none ∧ decode (s.pkt ++ s.cmdIn) = .more ∧
      t = { s with pkt := s.pkt ++ s.cmdIn, cmdIn := [] }) ∨
    (s.rst = false ∧ s.seqState = .idle ∧ s.rsp = none ∧
      ∃ i rest, decode (s.pkt ++ s.cmdIn) = .command i rest ∧
        exec i { s with pkt := [], cmdIn := rest } = .next t) := by
  rcases Bool.eq_false_or_eq_true s.rst with hr | hr
  · simp only [step, control, hr, if_true] at h
    exact .inl ⟨hr, (Host.Outcome.next.inj h).symm⟩
  · obtain ⟨q, hq⟩ : ∃ q, s.seqState = q := ⟨_, rfl⟩
    cases q with
    | transmitting =>
      simp only [step, control, hr, hq, Bool.false_eq_true, if_false] at h
      exact .inr (.inl ⟨hr, hq, (Host.Outcome.next.inj h).symm⟩)
    | idle =>
      simp only [step, control, idleStep, hr, hq, Bool.false_eq_true, if_false] at h
      obtain ⟨p, hp⟩ : ∃ p, s.rsp = p := ⟨_, rfl⟩
      cases p with
      | some r =>
        simp only [hp] at h
        exact .inr (.inr (.inl ⟨hr, hq, r, hp, (Host.Outcome.next.inj h).symm⟩))
      | none =>
        simp only [hp] at h
        rcases fetch_cases s with ⟨hd, hf⟩ | ⟨e, -, hf⟩ | ⟨i, rest, hd, hf⟩
        · simp only [hf] at h
          exact .inr (.inr (.inr (.inl ⟨hr, hq, hp, hd, (Host.Outcome.next.inj h).symm⟩)))
        · simp only [hf] at h
          cases h
        · simp only [hf] at h
          exact .inr (.inr (.inr (.inr ⟨hr, hq, hp, i, rest, hd, h⟩)))

/-- Under reset (R220). -/
theorem step_reset {s : State} (h : s.rst = true) : step s = .next (applyReset s) := by
  simp [step, control, h]

/-- In TRANSMITTING (R160). -/
theorem step_transmitting {s : State} (hr : s.rst = false) (hq : s.seqState = .transmitting) :
    step s = .next (transmitStep s) := by
  simp [step, control, hr, hq]

/-- In IDLE with a response on offer (R53). -/
theorem step_response {s : State} {r : Resp} (hr : s.rst = false) (hq : s.seqState = .idle)
    (hp : s.rsp = some r) : step s = .next (handResponse r s) := by
  simp [step, control, idleStep, hr, hq, hp]

/-- In IDLE with no response on offer (R52). -/
theorem step_fetch {s : State} (hr : s.rst = false) (hq : s.seqState = .idle)
    (hp : s.rsp = none) :
    step s = match fetch s with
      | .waits t => .next t
      | .reserved e => .refused (.reserved e)
      | .command i t => exec i t := by
  cases h : fetch s <;> simp [step, control, idleStep, hr, hq, hp, h]

/-! ### Runs -/

@[simp] theorem steps_zero (s : State) : steps 0 s = .next s := rfl

/-- A run of one step more, where the first step answers. -/
theorem steps_succ_of_next {s t : State} (n : Nat) (h : step s = .next t) :
    steps (n + 1) s = steps n t := by
  simp [steps, h]

/-- Runs compose. -/
theorem steps_add {s t : State} {n : Nat} (m : Nat) (h : steps n s = .next t) :
    steps (n + m) s = steps m t := by
  induction n generalizing s with
  | zero =>
    obtain rfl := Host.Outcome.next.inj h
    simp
  | succ n ih =>
    rw [Nat.succ_add]
    simp only [steps] at h ⊢
    cases hs : step s with
    | next u =>
      simp only [hs] at h
      exact ih h
    | fault f => simp [hs] at h
    | refused r => simp [hs] at h

/-- `steps` is the host's own run of the machine. -/
theorem steps_eq_run (n : Nat) (s : State) : steps n s = Host.Core.run Sys2Proof.core n s := by
  induction n generalizing s with
  | zero => rfl
  | succ n ih =>
    cases hs : step s with
    | next t =>
      have hc : Sys2Proof.core.step s = .next t := hs
      simp only [steps, Host.Core.run, hs, hc]
      exact ih t
    | fault f => exact nomatch f
    | refused r =>
      have hc : Sys2Proof.core.step s = .refused r := hs
      simp only [steps, Host.Core.run, hs, hc]
      rfl

end Machine

end Sys2Proof
end

