-- ==== Sys2Proof/Tests/Slice0.lean ====
section
/-! SUPPORT. Tests. Expected results come from spec/95_test_vectors.md (the vector is named in the
comment) or are worked out by hand from the rule named. The theorems `test_witness_…` show, for each
obligation with hypotheses, states and operands that meet them. -/

namespace Sys2Proof

namespace Tests

open Machine

/-! ### Helpers -/

/-- Some registry row, row 1 by default. -/
def row (k : Nat) : Proto := (rom k).getD (registryRow 350 1 31 1 3 3 1 false)

/-- A state ready for a command: row `k`, `REPEAT` `r`, these words on the stream. -/
def idle (k : Nat) (r : Word) (ws : List Word) : State :=
  { State.reset with proto := row k, repeatCount := r, cmdIn := ws }

/-- A state at the first event of a send. -/
def sending (k : Nat) (r : Word) (b : Buf) : State := startSend b (idle k r [])

/-- A send at another position. -/
def at_ (s : State) (rep : Word) (slot : Nat) (sub : Machine.Sub) (ph : Phase) : State :=
  { s with rep := rep, slot := slot, sub := sub, ph := ph }

/-- A codeword written as text. -/
def cw (t : String) : List Sym3 := (t.toList.mapM symOfChar).getD []

/-- The event list and response words of an outcome. -/
def seen : Host.Outcome State Fault Refusal → Option (List Event × List Word)
  | .next s => some (s.events, s.responses.map Resp.word)
  | _ => none

/-- The field of the next state. -/
def next? {α : Type} (f : State → α) : Host.Outcome State Fault Refusal → Option α
  | .next s => some (f s)
  | _ => none

/-- The refusal of an outcome. -/
def refusal? : Host.Outcome State Fault Refusal → Option Refusal
  | .refused r => some r
  | _ => none

/-- `H n` and `L n` of 95_test_vectors.md. -/
def hi (n : Word) : List Event := [.set .high, .delay n]

/-- See `hi`. -/
def lo (n : Word) : List Event := [.set .low, .delay n]

/-- K6's table. -/
def tableK6 : Proto := ⟨200, ⟨1, 20⟩, ⟨1, 0⟩, ⟨0, 2⟩, true⟩

/-- K9's table: one product is exactly 2^32. -/
def tableK9 : Proto := ⟨65536, ⟨65536, 1⟩, ⟨1, 1⟩, ⟨1, 1⟩, false⟩

/-- K10's table: its largest product is 65536 * 65535. -/
def tableK10 : Proto := ⟨65536, ⟨65535, 1⟩, ⟨1, 1⟩, ⟨1, 1⟩, false⟩

/-! ### WellFormed refuses an ill-formed term, check by check -/

theorem test_wf_setprotoRom : ¬ (Instr.setprotoRom 0).WellFormed ∧
    ¬ (Instr.setprotoRom 8).WellFormed ∧ (Instr.setprotoRom 7).WellFormed := by decide

/-- K8, K9, K10, and one product too large in each of the other five places. -/
theorem test_wf_setprotoTbl :
    ¬ (Instr.setprotoTbl { row 1 with pulseLength := 0 }).WellFormed ∧
    ¬ (Instr.setprotoTbl tableK9).WellFormed ∧ (Instr.setprotoTbl tableK10).WellFormed ∧
    ∀ w ∈ [(⟨1, 65536⟩ : Waveform)],
      ¬ (Instr.setprotoTbl { tableK10 with sync := w }).WellFormed ∧
      ¬ (Instr.setprotoTbl { tableK10 with zero := w }).WellFormed ∧
      ¬ (Instr.setprotoTbl { tableK10 with one := w }).WellFormed ∧
      ¬ (Instr.setprotoTbl { tableK10 with zero := ⟨w.low, w.high⟩ }).WellFormed ∧
      ¬ (Instr.setprotoTbl { tableK10 with one := ⟨w.low, w.high⟩ }).WellFormed := by decide

theorem test_wf_sendraw : ¬ (Instr.sendraw (List.replicate 65536 false)).WellFormed := by
  rw [Instr.WellFormed, List.length_replicate]
  decide

theorem test_wf_sendtri : ¬ (Instr.sendtri (List.replicate 65536 .s0)).WellFormed := by
  rw [Instr.WellFormed, List.length_replicate]
  decide

theorem test_wf_swa :
    ¬ (Instr.swaOn 0x10000 1).WellFormed ∧ ¬ (Instr.swaOn 0 256).WellFormed ∧
    ¬ (Instr.swaOff 0x10000 1).WellFormed ∧ ¬ (Instr.swaOff 0 256).WellFormed ∧
    ¬ (Instr.swaOn 0 (-1)).WellFormed ∧ ¬ (Instr.swaOff 0 (-1)).WellFormed ∧
    (Instr.swaOff 0xFFFF 255).WellFormed := by decide

theorem test_wf_swb :
    ¬ (Instr.swbOn 256 1).WellFormed ∧ ¬ (Instr.swbOn 1 256).WellFormed ∧
    ¬ (Instr.swbOff 256 1).WellFormed ∧ ¬ (Instr.swbOff 1 256).WellFormed ∧
    ¬ (Instr.swbOn (-1) 1).WellFormed ∧ ¬ (Instr.swbOff 1 (-1)).WellFormed ∧
    (Instr.swbOn 255 255).WellFormed := by decide

theorem test_wf_addrpat :
    ¬ (Instr.addrpat 256 (List.replicate 16 true)).WellFormed ∧
    ¬ (Instr.addrpat 5 [true]).WellFormed ∧
    ¬ (Instr.addrpat 17 (List.replicate 17 true)).WellFormed ∧
    (Instr.addrpat 255 (List.replicate 16 true)).WellFormed := by decide

/-! ### Decoding of words written out from the encodings (R73 to R81) -/

/-- K1, K3. -/
theorem test_decode_setprotoRom : decode [0x10000001] = .command (.setprotoRom 1) [] ∧
    decode [0x10000007] = .command (.setprotoRom 7) [] := by decide

/-- K6, K7: the seven words in the order of R81. -/
theorem test_decode_setprotoTbl :
    decode [0x20000001, 0x000000C8, 1, 0x14, 1, 0, 0, 2] = .command (.setprotoTbl tableK6) [] ∧
    decode [0x20000000, 0x0000015E, 1, 0x1F, 1, 3, 3, 1] = .command (.setprotoTbl (row 1)) [] := by
  decide

/-- E8, E9, E11, X3: the first symbol is bit 0 of the first word. -/
theorem test_decode_sendraw :
    decode [0x30000001, 0] = .command (.sendraw [false]) [] ∧
    decode [0x30000004, 0xA] = .command (.sendraw [false, true, false, true]) [] ∧
    decode [0x30000021, 0xFFFFFFFF, 1] = .command (.sendraw (List.replicate 33 true)) [] ∧
    decode [0x30000002, 1] = .command (.sendraw [true, false]) [] := by decide

/-- E3, E5, E7, X10. -/
theorem test_decode_sendtri :
    decode [0x40000003, 0x24] = .command (.sendtri [.s0, .s1, .sF]) [] ∧
    decode [0x40000011, 0xAAAAAAAA, 1] =
      .command (.sendtri (List.replicate 16 .sF ++ [.s1])) [] ∧
    decode [0x4000000C, 0x002AA022] = .command (.sendtri (cw "F0F000FFFFF0")) [] ∧
    decode [0x4000000C, 0x008AA022] = .command (.sendtri (cw "F0F000FFFF0F")) [] := by decide

/-- A1, A13, A2, A9. -/
theorem test_decode_swa :
    decode [0x5801001A] = .command (.swaOn 0x1A 1) [] ∧
    decode [0x58FFFFFF] = .command (.swaOn 0xFFFF 255) [] ∧
    decode [0x5001001A] = .command (.swaOff 0x1A 1) [] ∧
    decode [0x50060001] = .command (.swaOff 1 6) [] := by decide

/-- B4, B14, B2, B13. -/
theorem test_decode_swb :
    decode [0x68020300] = .command (.swbOn 2 3) [] ∧
    decode [0x68FFFF00] = .command (.swbOn 255 255) [] ∧
    decode [0x60010400] = .command (.swbOff 1 4) [] ∧
    decode [0x60040000] = .command (.swbOff 4 0) [] := by decide

/-- P1, P2, P6, and R79: of a longer pattern the packet carries sixteen characters. -/
theorem test_decode_addrpat :
    decode [0x7005001A] = .command (.addrpat 5 [false, true, false, true, true]) [] ∧
    decode [0x70030005] = .command (.addrpat 3 [true, false, true]) [] ∧
    decode [0x70000000] = .command (.addrpat 0 []) [] ∧
    decode [0x70FFFFFF] = .command (.addrpat 255 (List.replicate 16 true)) [] := by decide

/-- K4, K5, K11, B15, P9, E16: reserved headers; E15: reserved opcodes. -/
theorem test_decode_reserved_headers :
    decode [0x10000000] = .reserved .reservedIndex ∧
    decode [0x10000008] = .reserved .reservedIndex ∧
    decode [0x20000002] = .reserved .reservedBits ∧
    decode [0x68020301] = .reserved .reservedBits ∧
    decode [0x70050020] = .reserved .nonzeroPadding ∧
    decode [0x44000001, 0] = .reserved .reservedBits ∧
    decode [0] = .reserved .reservedOpcode ∧
    decode [0x80000000] = .reserved .reservedOpcode ∧
    decode [0xF0000000] = .reserved .reservedOpcode := by decide

/-- E12, E13, E14: reserved payloads. -/
theorem test_decode_reserved_payloads :
    decode [0x40000001, 3] = .reserved .reservedSymbol ∧
    decode [0x40000001, 4] = .reserved .nonzeroPadding ∧
    decode [0x30000001, 2] = .reserved .nonzeroPadding := by decide

/-- R52: the words after a packet stay; a packet that is not whole waits. -/
theorem test_decode_stream :
    decode [0x30000001, 1, 0x10000001] = .command (.sendraw [true]) [0x10000001] ∧
    decode [0x40000011, 0xAAAAAAAA] = .more ∧ decode [] = .more := by decide

/-- K2, K6, A4, B9, P5, E4, E10: the encoder against the written words. -/
theorem test_encode_words :
    encode (.setprotoRom 6) = [0x10000006] ∧
    encode (.setprotoTbl tableK6) = [0x20000001, 0xC8, 1, 0x14, 1, 0, 0, 2] ∧
    encode (.swaOff 0x1F 3) = [0x5003001F] ∧ encode (.swaOn 0 5) = [0x58050000] ∧
    encode (.swbOff 4 1) = [0x60040100] ∧ encode (.swbOn 3 3) = [0x68030300] ∧
    encode (.addrpat 5 [true, false, false, false, false]) = [0x70050001] ∧
    encode (.sendtri (List.replicate 16 .sF)) = [0x40000010, 0xAAAAAAAA] ∧
    encode (.sendraw (List.replicate 32 true)) = [0x30000020, 0xFFFFFFFF] := by decide

/-- The opcode table's numbering: the second word's bits stand above bit 31 (E9); words the table
gives no bits are zero. -/
theorem test_decodeTableWord :
    decodeTableWord 32 0x5801001A = some (.swaOn 0x1A 1) ∧
    decodeTableWord 64 (0x30000004 + 0xA * 2 ^ 32) =
      some (.sendraw [false, true, false, true]) ∧
    decodeTableWord 32 0x40000002 = some (.sendtri [.s0, .s0]) ∧
    decodeTableWord 32 0x10000000 = none := by decide

/-! ### Levels, emissions, symbols -/

/-- S14. -/
theorem test_adjust : adjust (row 1) true = .high ∧ adjust (row 1) false = .low ∧
    adjust (row 6) true = .low ∧ adjust (row 6) false = .high := by decide

/-- W1, W3, W6, W7. -/
theorem test_emit :
    emit (row 1) (row 1).sync = hi 350 ++ lo 10850 ∧
    emit (row 3) (row 3).zero = hi 400 ++ lo 1100 ∧
    emit (row 6) (row 6).one = lo 900 ++ hi 450 ∧
    emit (row 7) (row 7).one = hi 900 ++ lo 150 := by decide

/-- T3, T6, T11, T8, T9. -/
theorem test_symbols :
    mapTri (row 1) .sF = hi 350 ++ lo 1050 ++ hi 1050 ++ lo 350 ∧
    mapTri (row 6) .sF = lo 450 ++ hi 900 ++ lo 900 ++ hi 450 ∧
    mapTri (row 3) .s1 = hi 900 ++ lo 600 ++ hi 900 ++ lo 600 ∧
    mapRaw (row 1) true = hi 1050 ++ lo 350 ∧ mapRaw (row 6) false = lo 450 ++ hi 900 := by decide

/-- A1, A2, A3, A4, A11, A12. -/
theorem test_encA :
    encA 0x1A 1 true = cw "F0F000FFFF0F" ∧ encA 0x1A 1 false = cw "F0F000FFFFF0" ∧
    encA 0x00 5 true = cw "FFFFFFFFF00F" ∧ encA 0x1F 3 false = cw "00000FF0FFF0" ∧
    encA 0x15 2 true = cw "0F0F0F0FFF0F" ∧ encA 0x0A 4 false = cw "F0F0FFFF0FF0" := by decide

/-- B1, B2, B6, B9, B10, B11. -/
theorem test_encB :
    encB 1 1 true = some (cw "0FFF0FFFFFFF") ∧ encB 1 4 false = some (cw "0FFFFFF0FFF0") ∧
    encB 3 3 true = some (cw "FF0FFF0FFFFF") ∧ encB 4 1 false = some (cw "FFF00FFFFFF0") ∧
    encB 0 1 true = none ∧ encB 1 5 true = none := by decide

/-- X1, X3 and X3', X9. -/
theorem test_sendEvents :
    sendEvents .physLow (row 1) 2 (.tri [.s0, .sF]) =
      repeated 2 (hi 350 ++ lo 1050 ++ hi 350 ++ lo 1050 ++ hi 350 ++ lo 1050 ++ hi 1050 ++
        lo 350 ++ hi 350 ++ lo 10850) ++ [.set .low] ∧
    (∀ policy, sendEvents policy (row 6) 2 (.raw [true, false]) =
      repeated 2 (lo 900 ++ hi 450 ++ lo 450 ++ hi 900 ++ lo 10350 ++ hi 450) ++
        [.set (if policy = .physLow then .low else .high)]) ∧
    sendEvents .physLow tableK6 1 (.raw [false, true]) =
      lo 200 ++ hi 0 ++ lo 0 ++ hi 400 ++ lo 200 ++ hi 4000 ++ [.set .low] := by
  refine ⟨by decide, fun policy => ?_, by decide⟩
  cases policy <;> decide

/-! ### One step of each command -/

/-- K2: the table is installed, OK is on offer. -/
theorem test_step_setprotoRom :
    next? (fun t => (t.proto, t.rsp, t.cmdIn)) (step (idle 1 10 [0x10000006])) =
      some (⟨450, ⟨23, 1⟩, ⟨1, 2⟩, ⟨2, 1⟩, true⟩, some .ok, []) := by decide

/-- K10 and K9. -/
theorem test_step_setprotoTbl :
    next? (fun t => (t.proto, t.rsp)) (step (idle 1 10 (encode (.setprotoTbl tableK10)))) =
      some (tableK10, some .ok) ∧
    refusal? (step (idle 1 10 [0x20000000, 0x10000, 0x10000, 1, 1, 1, 1, 1])) =
      some .illFormedTable := by decide

/-- R158, R161: the packet is latched and the sequencer starts; no event yet. -/
theorem test_step_sendraw :
    next? (fun t => (t.seqState, t.buf, t.events, t.rsp)) (step (idle 1 1 [0x30000001, 1])) =
      some (.transmitting, .raw [true], [], none) := by decide

/-- X12: pin absent. -/
theorem test_step_sendtri_pin_absent :
    next? (fun t => (t.seqState, t.events, t.rsp))
        (step { idle 1 10 [0x40000001, 1] with pinPresent := false }) =
      some (.idle, [], some .ok) := by decide

/-- A1, A6. -/
theorem test_step_swaOn :
    next? (fun t => (t.seqState, t.buf)) (step (idle 1 10 [0x5801001A])) =
      some (.transmitting, .tri (cw "F0F000FFFF0F")) ∧
    next? (fun t => (t.seqState, t.rsp.map Resp.word)) (step (idle 1 10 [0x5806001A])) =
      some (.idle, some 0x10000000) := by decide

/-- A12, and P4's third command. -/
theorem test_step_swaOff :
    next? (fun t => t.buf) (step (idle 1 10 [0x5004000A])) =
      some (.tri (cw "F0F0FFFF0FF0")) ∧
    next? (fun t => (t.seqState, t.rsp.map Resp.word)) (step (idle 1 10 [0x50030020])) =
      some (.idle, some 0x20000000) := by decide

/-- B4, B10. -/
theorem test_step_swbOn :
    next? (fun t => t.buf) (step (idle 1 10 [0x68020300])) = some (.tri (cw "F0FFFF0FFFFF")) ∧
    next? (fun t => (t.seqState, t.rsp.map Resp.word)) (step (idle 1 10 [0x68000100])) =
      some (.idle, some 0) := by decide

/-- B9, B12. -/
theorem test_step_swbOff :
    next? (fun t => t.buf) (step (idle 1 10 [0x60040100])) = some (.tri (cw "FFF00FFFFFF0")) ∧
    next? (fun t => (t.seqState, t.rsp.map Resp.word)) (step (idle 1 10 [0x60050100])) =
      some (.idle, some 0) := by decide

/-- P1, P5, P2, P7. -/
theorem test_step_addrpat :
    (([0x7005001A, 0x70050001, 0x70030005, 0x7006001A] : List Word).map fun w =>
      next? (fun t => t.rsp.map Resp.word) (step (idle 1 10 [w]))) =
      [some (some 0x0000001A), some (some 0x00000001), some (some 0x20000000),
        some (some 0x20000000)] := by decide

/-- A8 under both orders. -/
theorem test_fault_order :
    next? (fun t => t.rsp.map Resp.word) (exec (.swaOn 0x20 0) (idle 1 10 [])) =
      some (some 0x10000000) ∧
    next? (fun t => t.rsp.map Resp.word)
        (exec (.swaOn 0x20 0)
          { idle 1 10 [] with cfg := { standardParams with swaFaultOrder := .addressFirst } }) =
      some (some 0x20000000) := by decide

/-- R77: a negative channel falls under InvalidChannel, alone and beside a bad address (R123),
under both orders; so does 256, which no packet carries either. -/
theorem test_negative_channel :
    (([-1, 256] : List Int).map fun ch =>
      next? (fun t => (t.seqState, t.rsp)) (exec (.swaOn 0x1A ch) (idle 1 10 []))) =
      List.replicate 2 (some (.idle, some (.err .invalidChannel))) ∧
    (([.channelFirst, .addressFirst] : List Config.FaultOrder).map fun o =>
      next? (fun t => t.rsp)
        (exec (.swaOff 0x10000 (-1))
          { idle 1 10 [] with cfg := { standardParams with swaFaultOrder := o } })) =
      [some (some (.err .invalidChannel)), some (some (.err .invalidAddress))] := by decide

/-- R129, R130: a negative code is out of range, and so no error and no activity. -/
theorem test_negative_code :
    encB (-1) 1 true = none ∧
    next? (fun t => (t.seqState, t.rsp)) (exec (.swbOn 1 (-4)) (idle 1 10 [])) =
      some (.idle, some .ok) := by decide

/-- E12 and E15 at the level of a step. -/
theorem test_step_reserved :
    refusal? (step (idle 1 10 [0x40000001, 3])) = some (.reserved .reservedSymbol) ∧
    refusal? (step (idle 1 10 [0])) = some (.reserved .reservedOpcode) := by decide

/-! ### The sequencer, small step by small step (95, section 2.8) -/

/-- One step hands over exactly this event and leads to this position. -/
def goes (s : State) (e : Event) (rep : Word) (slot : Nat) (sub : Machine.Sub) (ph : Phase) :
    Bool :=
  match step s with
  | .next t =>
    t.events == [e] && t.rep == rep && t.slot == slot && t.sub == sub && t.ph == ph &&
      (t.seqState == .idle) == (t.rsp == some .ok)
  | _ => false

/-- Rows 1, 4, 8 of the table. -/
theorem test_sequencer_raw :
    goes (sending 1 1 (.raw [true])) (.set .high) 0 0 .first .delayHigh = true ∧
    goes (at_ (sending 1 1 (.raw [true])) 0 0 .first .delayLow) (.delay 350) 0 1 .first
      .driveHigh = true ∧
    goes (at_ (sending 1 1 (.raw [true])) 0 1 .first .delayLow) (.delay 10850) 1 0 .first
      .driveHigh = true := by decide

/-- R162, R164: a tri-state symbol has two emissions, the sync slot one. -/
theorem test_sequencer_tri :
    goes (at_ (sending 1 1 (.tri [.sF])) 0 0 .first .delayLow) (.delay 1050) 0 0 .second
      .driveHigh = true ∧
    goes (at_ (sending 1 1 (.tri [.sF])) 0 0 .second .delayLow) (.delay 350) 0 1 .first
      .driveHigh = true ∧
    goes (at_ (sending 1 1 (.tri [.sF])) 0 1 .first .delayLow) (.delay 10850) 1 0 .first
      .driveHigh = true := by decide

/-- Row 9: the closing drive, IDLE, response OK. -/
theorem test_sequencer_end :
    next? (fun t => (t.events, t.seqState, t.rsp, t.pinLevel))
        (step (at_ (sending 1 1 (.raw [true])) 1 0 .first .driveHigh)) =
      some ([.set .low], .idle, some .ok, some .low) := by decide

/-- R220: a reset in mid-send; the pin's shadow is unknown again, no response comes. -/
theorem test_reset_in_mid_send :
    next? (fun t => (t.seqState, t.pinLevel, t.rsp, t.events))
        (step { sending 1 1 (.raw [true]) with rst := true, ioReady := false, pinLevel := some .high }) =
      some (.idle, none, none, []) := by decide

/-- X8 and P6's second half, as a run: 1 step to take it, 9 events, 1 for the response. -/
theorem test_run_of_a_send :
    seen (steps 11 (idle 7 1 [0x30000001, 1])) =
      some (hi 900 ++ lo 150 ++ hi 300 ++ lo 9300 ++ [.set .low], [0]) := by decide

/-- P4: errors and silent no-ops leave no trace. -/
theorem test_program_p4 :
    next? (fun t => (t.events, t.responses.map Resp.word, t.pinLevel))
        (steps 12 (idle 3 10 [0x10000001, 0x5806001A, 0x50030020, 0x68000100, 0x60010500,
          0x70030005])) =
      some ([], [0, 0x10000000, 0x20000000, 0, 0, 0x20000000], none) := by decide

/-! ### Source operations, ports -/

/-- S11, R86, R87. -/
theorem test_source_ops :
    (SourceOp.addressFromPattern "01011".toList).expand =
      some (.addrpat 5 [false, true, false, true, true]) ∧
    (SourceOp.sendTriState "01F".toList).expand = some (.sendtri [.s0, .s1, .sF]) ∧
    (SourceOp.switchOnA [false, true, false, true, true] 1).expand = some (.swaOn 0x1A 1) ∧
    (SourceOp.switchOffA [true] (-1)).expand = some (.swaOff 1 (-1)) ∧
    asm (.swbOn (-2) 3) = "SWB.ON -2, 3" ∧
    registryIndex (row 6) = some 6 ∧ registryIndex tableK6 = none := by decide

/-- R82, R33: a response word and the event port. -/
theorem test_ports :
    (Resp.okv 0x1A).word = 0x1A ∧ (Resp.err .invalidPattern).word = 0x30000000 ∧
    ioPort (sending 1 1 (.raw [true])) = some ⟨0b01, 0⟩ ∧
    ioPort (at_ (sending 1 1 (.raw [true])) 0 0 .first .delayHigh) = some ⟨0b10, 1050⟩ ∧
    cmdReady (idle 1 1 []) = true ∧ cmdReady (sending 1 1 (.raw [])) = false := by decide

/-- R173: the waveform of an inverted send's end, with a merged pair (row 6, `0` then sync). -/
theorem test_waveform :
    waveform none (emit (row 6) (row 6).zero ++ [.set .high, .delay 5, .delay 0]) =
      [⟨some .low, 450⟩, ⟨some .high, 905⟩] := by decide

/-! ### Witnesses: what meets the hypotheses of each obligation -/

/-- The pair of rows next to the registry, for the last clause. -/
theorem test_witness_RegistryHoldsTheSevenRows :
    ((0 = 0 ∨ 8 ≤ 0) ∧ rom 0 = none) ∧ ((8 = 0 ∨ 8 ≤ 8) ∧ rom 8 = none) ∧
    ¬ (7 = 0 ∨ 8 ≤ 7) := by decide

theorem test_witness_SetprotoRomInstallsItsRow :
    (1 ≤ 1 ∧ 1 ≤ 7) ∧ (1 ≤ 7 ∧ 7 ≤ 7) := by decide

/-- K10 and K9 stand on the two sides of the bound. -/
theorem test_witness_SetprotoTblInstallsAWellFormedTable :
    tableK10.WellFormed ∧ ¬ tableK9.WellFormed := by decide

theorem test_witness_TablesStayWellFormed :
    ∃ s t : State, s.TablesWellFormed ∧ step s = .next t :=
  ⟨idle 1 10 (encode (.setprotoTbl tableK10)), _, by decide, rfl⟩

theorem test_witness_AdjustIsExclusiveOr :
    (row 1).inverted = false ∧ (row 6).inverted = true := by decide

/-- The largest product that fits: 65537 * 65535 = 2^32 - 1. -/
theorem test_witness_EmissionIsFourEvents :
    ({ row 1 with pulseLength := 65537 } : Proto).pulseLength.toNat *
        (⟨65535, 0⟩ : Waveform).high.toNat = 2 ^ 32 - 1 ∧
    ({ row 1 with pulseLength := 65537 } : Proto).pulseLength.toNat *
        (⟨65535, 0⟩ : Waveform).low.toNat < 2 ^ 32 := by decide

theorem test_witness_TriStateSymbolsArePaired : rom 1 = some (row 1) := by decide

theorem test_witness_CountsAndDurationsOfASend :
    tableK10.WellFormed ∧ rom 1 = some (row 1) ∧ rom 7 = some (row 7) := by decide

theorem test_witness_RegistrySendDurations : (cw "F0F000FFFF0F").length = 12 := by decide

/-- Each clause at the last symbol and at the sync slot. -/
theorem test_witness_WaveAtAPosition :
    ([true, false] : List Bool)[0]? = some true ∧ ([true, false] : List Bool)[1]? = some false ∧
    2 = ([true, false] : List Bool).length ∧
    (cw "01F")[0]? = some .s0 ∧ (cw "01F")[1]? = some .s1 ∧ (cw "01F")[2]? = some .sF ∧
    3 = (cw "01F").length := by decide

theorem test_witness_ClosingDriveByPolicy :
    rom 5 = some (row 5) ∧ rom 6 = some (row 6) ∧ rom 7 = some (row 7) := by decide

/-- In the first pass, in the last pass, and in every phase. -/
theorem test_witness_SequencerEventStep :
    ∀ ph : Phase, ∀ rep ∈ ([0, 9] : List Word), ∃ s : State,
      s.rst = false ∧ s.seqState = .transmitting ∧
      s.ioReady = true ∧ s.rep < s.repeatCount ∧ s.ph = ph ∧ s.rep = rep ∧
      s.sub = .first ∧ s.buf.twoEmissions s.slot = true := by
  intro ph rep h
  refine ⟨at_ (sending 1 10 (.tri [.sF])) rep 0 .first ph, rfl, rfl, rfl, ?_, rfl, rfl, rfl, rfl⟩
  have hr : rep < 10 := by
    simp only [List.mem_cons, List.not_mem_nil, or_false] at h
    rcases h with rfl | rfl <;> decide
  exact hr

/-- The other two ways on from a delay's end: a symbol slot with one emission, and the sync slot. -/
theorem test_witness_SequencerEventStep_slots :
    ∃ s t : State, (s.rst = false ∧ s.seqState = .transmitting ∧ s.ioReady = true ∧
        s.rep < s.repeatCount ∧ s.ph = .delayLow ∧ s.buf.twoEmissions s.slot = false ∧
        s.slot < s.buf.len) ∧
      (t.rst = false ∧ t.seqState = .transmitting ∧ t.ioReady = true ∧
        t.rep < t.repeatCount ∧ t.ph = .delayLow ∧ t.buf.twoEmissions t.slot = false ∧
        ¬ t.slot < t.buf.len) :=
  ⟨at_ (sending 1 1 (.raw [true])) 0 0 .first .delayLow,
    at_ (sending 1 1 (.tri [.sF])) 0 1 .first .delayLow, by decide, by decide⟩

theorem test_witness_SequencerEndStep :
    ∃ s : State, s.rst = false ∧ s.seqState = .transmitting ∧ s.ioReady = true ∧
      s.rep = s.repeatCount :=
  ⟨at_ (sending 1 10 (.raw [true])) 10 0 .first .driveHigh, by decide⟩

theorem test_witness_SendWaitsForTheCollaborator :
    ∃ s : State, s.rst = false ∧ s.seqState = .transmitting ∧ s.ioReady = false :=
  ⟨{ sending 1 10 (.raw [true]) with ioReady := false }, by decide⟩

/-- A send of ten passes, and one of none (X6). -/
theorem test_witness_SequencerAgreesWithSendEvents :
    ∀ r : Word, (sending 1 r (.tri (cw "0F"))).AtSendStart ∧
      (sending 1 r (.tri (cw "0F"))).rst = false ∧
      (sending 1 r (.tri (cw "0F"))).ioReady = true := by
  intro r; exact ⟨⟨rfl, rfl, rfl, rfl, rfl⟩, rfl, rfl⟩

/-- A sample with the collaborator ready or not, the strap off and words for the stream. -/
def busy (ready : Bool) (words : List Word) : Sample :=
  { rst := false, pinPresent := false, ioReady := ready, rspReady := false, words := words }

/-- X2's twelve events but one, with a wait among them, and then the last: the boundary of both
clauses. -/
theorem test_witness_SendIsTheSameUnderAnyInputs :
    let s := sending 1 1 (.tri [.s0])
    let xs := busy false [0] :: List.replicate 12 (busy true [0])
    s.AtSendStart ∧ (∀ x ∈ xs, x.rst = false) ∧
    (sendEvents s.cfg.idlePolicy s.proto s.repeatCount.toNat s.buf).length = 13 ∧
    (xs.filter fun x => x.ioReady).length = 12 ∧
    (busy true []).rst = false ∧ (busy true []).ioReady = true := by decide

theorem test_witness_SendIgnoresHostAndStrap :
    ∃ s t : State, s.rst = false ∧ s.seqState = .transmitting ∧ step s = .next t :=
  ⟨sending 6 2 (.raw [true, false]), _, rfl, rfl, rfl⟩

/-- Both transitions happen. -/
theorem test_witness_OnlySendsStartAndOnlyTheClosingDriveEnds :
    (∃ s t : State, s.rst = false ∧ step s = .next t ∧ s.seqState = .idle ∧
      t.seqState = .transmitting) ∧
    ∃ s t : State, s.rst = false ∧ step s = .next t ∧ s.seqState = .transmitting ∧
      t.seqState = .idle :=
  ⟨⟨idle 1 10 [0x68020300], _, rfl, rfl, rfl, rfl⟩,
    ⟨at_ (sending 1 10 (.raw [true])) 10 0 .first .driveHigh, _, rfl, rfl, rfl, rfl⟩⟩

theorem test_witness_SwaOnSendsItsCodeword :
    (0 < 32 ∧ (1 : Int) ≤ 1 ∧ (1 : Int) ≤ 5) ∧ (31 < 32 ∧ (1 : Int) ≤ 5 ∧ (5 : Int) ≤ 5) := by
  decide

theorem test_witness_SwaOffSendsItsCodeword :
    (0 < 32 ∧ (1 : Int) ≤ 5 ∧ (5 : Int) ≤ 5) ∧ (31 < 32 ∧ (1 : Int) ≤ 1 ∧ (1 : Int) ≤ 5) := by
  decide

/-- A5 to A8, a negative channel with each address, and both values of the parameter. -/
theorem test_witness_SwaRaisesOnBadOperands :
    (∀ ch ∈ ([0, 6, -1] : List Int), (ch < 1 ∨ 5 < ch) ∧ 0x1A < 32 ∧ 32 ≤ 0x20) ∧
    (∀ ch ∈ ([1, 3, 5] : List Int), 1 ≤ ch ∧ ch ≤ 5 ∧ 32 ≤ 0x20) ∧
    (idle 1 10 []).cfg.swaFaultOrder = .channelFirst ∧
    ({ idle 1 10 [] with
        cfg := { standardParams with swaFaultOrder := .addressFirst } } : State).cfg.swaFaultOrder =
      .addressFirst := by decide

theorem test_witness_SwbOnSendsItsCodeword :
    ((1 : Int) ≤ 1 ∧ (1 : Int) ≤ 4) ∧ ((1 : Int) ≤ 4 ∧ (4 : Int) ≤ 4) := by decide

theorem test_witness_SwbOffSendsItsCodeword :
    ((1 : Int) ≤ 4 ∧ (4 : Int) ≤ 4) ∧ ((1 : Int) ≤ 1 ∧ (1 : Int) ≤ 4) := by decide

/-- B10 to B13, a negative code in each place, and both values of the parameter. -/
theorem test_witness_SwbBadCodesAreSilent :
    (∀ p ∈ ([(0, 1), (1, 5), (5, 1), (4, 0), (-1, 4), (1, -1)] : List (Int × Int)),
      p.1 < 1 ∨ 4 < p.1 ∨ p.2 < 1 ∨ 4 < p.2) ∧
    (idle 1 10 []).cfg.typeBInvalid = .noActivity ∧
    ({ idle 1 10 [] with
        cfg := { standardParams with typeBInvalid := .emptySend } } : State).cfg.typeBInvalid =
      .emptySend := by decide

theorem test_witness_AddrpatParsesFiveCharacters :
    ([false, true, false, true, true] : List Bool).length = 5 := by decide

theorem test_witness_AddrpatRejectsOtherLengths : 4 ≠ 5 ∧ 6 ≠ 5 ∧ 0 ≠ 5 := by decide

theorem test_witness_CodewordShapes :
    (∀ ch ∈ ([1, 5] : List Int), 0 < 32 ∧ 31 < 32 ∧ 1 ≤ ch ∧ ch ≤ 5) ∧
    ∀ k ∈ ([1, 4] : List Int), 1 ≤ k ∧ k ≤ 4 := by decide

theorem test_witness_CodewordsDetermineTheirOperands :
    (31 < 32 ∧ (1 : Int) ≤ 5 ∧ (5 : Int) ≤ 5 ∧ encA 31 5 true = encA 31 5 true) ∧
    ∃ cw, encB 4 1 false = some cw := ⟨by decide, _, rfl⟩

/-- A8, with the pin present. -/
theorem test_witness_ErrorsLeaveNoTrace :
    ∃ (i : Instr) (s t : State) (e : ErrorKind), s.rsp = none ∧ exec i s = .next t ∧
      t.rsp = some (.err e) :=
  ⟨.swaOn 0x20 0, idle 1 10 [], _, .invalidChannel, rfl, rfl, rfl⟩

theorem test_witness_CommandFrame :
    (∃ t, exec (.swbOff 4 1) (idle 1 10 []) = .next t ∧ t.AtSendStart) ∧
    ∃ t, exec (.setprotoRom 6) (idle 1 10 []) = .next t ∧ t.proto ≠ (idle 1 10 []).proto :=
  ⟨⟨_, rfl, by decide⟩, ⟨_, rfl, by decide⟩⟩

/-- A well-formed command of each kind, at the ends of its ranges. -/
theorem test_witness_DecodeOfEncodeIsTheCommand :
    ∀ i ∈ ([.setprotoRom 1, .setprotoRom 7, .setprotoTbl tableK10, .sendraw [],
        .sendraw (List.replicate 33 true), .sendtri [], .sendtri (List.replicate 17 .sF),
        .swaOn 0xFFFF 255, .swaOff 0 0, .swbOn 255 255, .swbOff 0 0, .addrpat 0 [],
        .addrpat 255 (List.replicate 16 true)] : List Instr), i.WellFormed := by
  intro i hi
  fin_cases hi <;> decide

theorem test_witness_EncodeOfDecodeIsThePacket :
    ∃ (ws rest : List Word) (i : Instr), decode ws = .command i rest ∧ rest ≠ [] :=
  ⟨[0x40000011, 0xAAAAAAAA, 1, 0x10000001], _, _, rfl, by decide⟩

/-- E11: a full word and one bit. -/
theorem test_witness_SendrawPayloadBits :
    opc 0x30000021 = 3 ∧ field 0x30000021 16 12 = 0 ∧
    ([0xFFFFFFFF, 1] : List Word).length = (field 0x30000021 0 16 + 31) / 32 := by decide

/-- E5: a full word and one symbol. -/
theorem test_witness_SendtriPayloadSymbols :
    opc 0x40000011 = 4 ∧ field 0x40000011 16 12 = 0 ∧
    ([0xAAAAAAAA, 1] : List Word).length = (field 0x40000011 0 16 + 15) / 16 := by decide

/-- A state with any part of the words taken before, and for each clause a header (and payload) that
meets it: E15, K11 with the other reserved bits, K4, K5, P9, E14, E13, E12, K9. -/
theorem test_witness_ReservedEncodingsAreRefused :
    (∀ (n : Nat) (ws : List Word), ∃ s : State, s.rst = false ∧ s.seqState = .idle ∧
      s.rsp = none ∧ s.pkt = ws.take n ∧ s.pkt ++ s.cmdIn = ws) ∧
    (opc 0 = 0 ∧ 8 ≤ opc 0x80000000 ∧ 8 ≤ opc 0xF0000000) ∧
    ((opc 0x10000010 = 1 ∧ field 0x10000010 4 24 ≠ 0) ∧
      (opc 0x20000002 = 2 ∧ field 0x20000002 1 27 ≠ 0) ∧
      (opc 0x30010000 = 3 ∧ field 0x30010000 16 12 ≠ 0) ∧
      (opc 0x44000001 = 4 ∧ field 0x44000001 16 12 ≠ 0) ∧
      (opc 0x51010000 = 5 ∧ field 0x51010000 24 3 ≠ 0) ∧
      (opc 0x68020301 = 6 ∧ field 0x68020301 0 8 ≠ 0) ∧
      (opc 0x71050000 = 7 ∧ field 0x71050000 24 4 ≠ 0)) ∧
    (opc 0x10000000 = 1 ∧ field 0x10000000 4 24 = 0 ∧ field 0x10000000 0 4 = 0) ∧
    (opc 0x10000008 = 1 ∧ field 0x10000008 4 24 = 0 ∧ 8 ≤ field 0x10000008 0 4) ∧
    (opc 0x70050020 = 7 ∧ field 0x70050020 24 4 = 0 ∧ field 0x70050020 16 8 ≤ 5 ∧
      (0x70050020 : Word).getLsbD 5 = true) ∧
    (opc 0x30000001 = 3 ∧ field 0x30000001 16 12 = 0 ∧
      ([2] : List Word).length = (field 0x30000001 0 16 + 31) / 32 ∧
      field 0x30000001 0 16 ≤ 1 ∧ (([2] : List Word).getD (1 / 32) 0).getLsbD (1 % 32) = true) ∧
    (opc 0x40000001 = 4 ∧ field 0x40000001 16 12 = 0 ∧
      ([4] : List Word).length = (field 0x40000001 0 16 + 15) / 16 ∧
      field 0x40000001 0 16 ≤ 1 ∧ field (([4] : List Word).getD (1 / 16) 0) (2 * (1 % 16)) 2 ≠ 0 ∧
      field (([3] : List Word).getD (0 / 16) 0) (2 * (0 % 16)) 2 = 3) ∧
    ([0x20000000, 0x10000, 0x10000, 1, 1, 1, 1, 1] : List Word) = encode (.setprotoTbl tableK9) ∧
    ¬ tableK9.WellFormed := by
  refine ⟨fun n ws => ⟨{ idle 1 10 (ws.drop n) with pkt := ws.take n }, rfl, rfl, rfl, rfl,
    List.take_append_drop n ws⟩, ?_⟩
  decide

/-- E14, E12 and K9 with the header taken in an earlier step. -/
theorem test_step_reserved_payload :
    refusal? (step { idle 1 10 [2] with pkt := [0x30000001] }) =
      some (.reserved .nonzeroPadding) ∧
    refusal? (step { idle 1 10 [3] with pkt := [0x40000001] }) =
      some (.reserved .reservedSymbol) ∧
    refusal? (step { idle 1 10 [1, 1] with
      pkt := [0x20000000, 0x10000, 0x10000, 1, 1, 1] }) = some .illFormedTable := by decide

/-- Both refusals a step can answer. -/
theorem test_witness_NothingElseIsRefused :
    step (idle 1 10 [0]) = .refused (.reserved .reservedOpcode) ∧
    step (idle 1 10 (encode (.setprotoTbl tableK9))) = .refused .illFormedTable := ⟨rfl, rfl⟩

/-- Half a packet was taken before; the rest is there now. -/
theorem test_witness_StepRunsTheDecodedCommand :
    ∃ (s : State) (i : Instr) (rest : List Word), s.rst = false ∧ s.seqState = .idle ∧
      s.rsp = none ∧ decode (s.pkt ++ s.cmdIn) = .command i rest ∧ s.pkt ≠ [] ∧ rest ≠ [] :=
  ⟨{ idle 1 10 [1, 0x10000001] with pkt := [0x30000001] }, _, _, rfl, rfl, rfl, rfl, by decide,
    by decide⟩

theorem test_witness_PartialPacketWaits :
    ∃ (s : State) (i : Instr) (sent unsent : List Word), s.rst = false ∧ s.seqState = .idle ∧
      s.rsp = none ∧ i.WellFormed ∧ s.pkt ++ s.cmdIn = sent ∧ encode i = sent ++ unsent ∧
      unsent ≠ [] ∧ s.pkt ≠ [] ∧ s.cmdIn ≠ [] :=
  ⟨{ idle 1 10 [0xAAAAAAAA] with pkt := [0x40000011] },
    .sendtri (List.replicate 16 .sF ++ [.s1]), _, [1], rfl, rfl, rfl, by decide, rfl, by decide,
    by decide, by decide, by decide⟩

theorem test_witness_ResponseBeforeTheNextCommand :
    ∀ ready : Bool, ∃ (s : State) (r : Resp), s.rst = false ∧ s.seqState = .idle ∧
      s.rsp = some r ∧ s.rspReady = ready ∧ s.cmdIn ≠ [] :=
  fun ready => ⟨{ idle 1 10 [0x10000001] with rsp := some .ok, rspReady := ready }, .ok, rfl, rfl,
    rfl, rfl, by simp [idle]⟩

/-- A step that adds an event, and a step that adds a response. -/
theorem test_witness_StepAddsAtMostOneEventAndOneResponse :
    (∃ s t : State, step s = .next t ∧ t.events ≠ s.events) ∧
    ∃ s t : State, step s = .next t ∧ t.responses ≠ s.responses :=
  ⟨⟨sending 1 1 (.raw []), _, rfl, by decide⟩,
    ⟨{ idle 1 10 [] with rsp := some .ok }, _, rfl, by decide⟩⟩

theorem test_witness_OnlySetprotoWritesTheTable :
    ∃ s t : State, s.rst = false ∧ step s = .next t ∧ t.proto ≠ s.proto :=
  ⟨idle 1 10 [0x10000006], _, rfl, rfl, by decide⟩

/-- P2 of 95_test_vectors.md, with a word of the next packet behind it. -/
theorem test_witness_CommandsRunAsTheAbstractLevelSays :
    ∃ (s : State) (cmds : List Instr) (rest : List Word), s.Ready ∧ s.Responsive ∧
      (∀ i ∈ cmds, i.WellFormed) ∧ s.cmdIn = cmds.flatMap encode ++ rest ∧ rest ≠ [] ∧
      s.pinPresent = true :=
  ⟨idle 3 10 [0x10000001, 0x7005001A, 0x5801001A, 0x30000001],
    [.setprotoRom 1, .addrpat 5 [false, true, false, true, true], .swaOn 0x1A 1], [0x30000001],
    by decide, by decide, by intro i hi; fin_cases hi <;> decide, by decide, by decide, by decide⟩

/-- In mid-send: with the event on offer completed and not, and in IDLE. -/
theorem test_witness_ResetAbandonsTheSend :
    (∀ ready : Bool, ∃ s : State, s.rst = true ∧ s.seqState = .transmitting ∧
      s.ioReady = ready) ∧
    ∃ s : State, s.rst = true ∧ s.seqState = .idle :=
  ⟨fun ready => ⟨{ sending 1 1 (.raw [true]) with rst := true, ioReady := ready }, rfl, rfl, rfl⟩,
    ⟨{ idle 1 1 [] with rst := true }, rfl, rfl⟩⟩

/-- A state in the middle of a send under an inverted table. -/
def midSend : State :=
  { at_ (sending 6 2 (.tri [.sF])) 1 0 .second .delayHigh with
    pinLevel := some .low, events := [.set .low] }

theorem test_witness_good_mid_send : midSend.Good where
  tables := by decide
  position := by unfold State.PositionInRange; decide
  oneAtATime := by unfold State.OneCommandAtATime; decide
  levelInForce := fun _ => rfl
  shadow := by unfold State.ShadowIsLastSet; decide
  responses := by unfold State.NoInvalidPattern; decide

theorem test_witness_EveryStepKeepsTheGoodState :
    ∃ s t : State, s.Good ∧ step s = .next t ∧ t ≠ s :=
  ⟨midSend, _, test_witness_good_mid_send, rfl, by decide⟩

theorem test_witness_ResetStateIsGood :
    ({ standardParams with resetProto := tableK10 } : Config.Params).resetProto.WellFormed := by
  decide

/-- One event, then a reset, then the first word of a packet. -/
theorem test_witness_GoodUnderAnyInputs :
    ∃ (s t : State) (xs : List Sample), s.Good ∧ runSamples xs s = .next t ∧ t.pkt ≠ [] :=
  ⟨midSend, _, [busy true [], { busy false [] with rst := true }, busy true [0x30000001]],
    test_witness_good_mid_send, rfl, by decide⟩

/-- A drive either way and a delay on the port. -/
theorem test_witness_EventPortShowsTheOffer :
    ioPort (sending 1 1 (.raw [true])) = some ⟨0b01, 0⟩ ∧
    ioPort (sending 6 1 (.raw [true])) = some ⟨0b00, 0⟩ ∧ ioPort midSend = some ⟨0b10, 900⟩ ∧
    (sending 1 1 (.raw [true])).rst = false ∧ (idle 1 1 []).seqState = .idle := by decide

/-- A step that takes words, a step that hands a response over, and a response on offer under
reset. -/
theorem test_witness_HostPortsFollowTheHandshake :
    (∃ s t : State, s.rst = false ∧ step s = .next t ∧ t.cmdIn ≠ s.cmdIn) ∧
    (∃ s t : State, step s = .next t ∧ t.responses ≠ s.responses ∧
      rspPort s = some 0x0000001A) ∧
    ∃ s : State, s.rst = true ∧ s.rsp = some .ok :=
  ⟨⟨idle 1 10 [0x7005001A], _, rfl, rfl, by decide⟩,
    ⟨{ idle 1 10 [] with rsp := some (.okv 0x1A) }, _, rfl, by decide, by decide⟩,
    ⟨{ idle 1 10 [] with rsp := some .ok, rst := true }, rfl, rfl⟩⟩

theorem test_witness_PatternIsItsGroupAddress :
    ['0', '1', '0', '1', '1'].mapM bitOfChar = some [false, true, false, true, true] ∧
    ['0', '1', '0', '1', '1'].length = 5 := ⟨rfl, rfl⟩

theorem test_witness_SendStringIsSendraw :
    (∀ c ∈ ['0', '1', '0', '1'], c = '0' ∨ c = '1') ∧
    (∃ c ∈ ['0', '1', 'F', '1'], c ≠ '0' ∧ c ≠ '1') := by simp

theorem test_witness_SetProtocolByRowOrByTable :
    registryIndex (row 1) = some 1 ∧ registryIndex (row 7) = some 7 := ⟨rfl, rfl⟩

end Tests

end Sys2Proof
end

section
/-! The decoder reads back what the encoder writes (R89). -/

namespace Sys2Proof

/-! ### Payloads of SENDRAW -/

/-- A payload word of at most 32 bits holds their number exactly (R74). -/
theorem ofNat_natOfBits_toNat {bits : List Bool} (fits : bits.length ≤ 32) :
    (BitVec.ofNat 32 (natOfBits bits)).toNat = natOfBits bits := by
  have bound := natOfBits_lt bits
  have width : 2 ^ bits.length ≤ 2 ^ 32 := Nat.pow_le_pow_right (by omega) fits
  rw [BitVec.toNat_ofNat, Nat.mod_eq_of_lt (by omega)]

theorem unpackRaw_packRaw (k : Nat) (bits : List Bool) (room : bits.length ≤ 32 * k) :
    unpackRaw bits.length (packRaw k bits) = bits := by
  induction k generalizing bits with
  | zero =>
    obtain rfl := List.length_eq_zero_iff.1 (Nat.le_zero.1 room)
    rfl
  | succ k ih =>
    rw [packRaw, unpackRaw, ofNat_natOfBits_toNat (by simp), Nat.min_comm,
      ← List.length_take, bitsOfNat_natOfBits, ← List.length_drop, ih _ (by simp; omega),
      List.take_append_drop]

theorem padOkRaw_packRaw (k : Nat) (bits : List Bool) :
    padOkRaw bits.length (packRaw k bits) = true := by
  induction k generalizing bits with
  | zero => rfl
  | succ k ih =>
    rw [packRaw, padOkRaw, ofNat_natOfBits_toNat (by simp), Nat.min_comm, ← List.length_take,
      Nat.div_eq_of_lt (natOfBits_lt _), ← List.length_drop, ih]
    rfl

/-! ### Payloads of SENDTRI -/

/-- A payload word of at most 16 symbols holds their number exactly (R75). -/
theorem ofNat_natOfSyms_toNat {syms : List Sym3} (fits : syms.length ≤ 16) :
    (BitVec.ofNat 32 (natOfSyms syms)).toNat = natOfSyms syms := by
  have bound := natOfSyms_lt syms
  have width : 4 ^ syms.length ≤ 4 ^ 16 := Nat.pow_le_pow_right (by omega) fits
  rw [BitVec.toNat_ofNat, Nat.mod_eq_of_lt (by omega)]

theorem unpackTri_packTri (k : Nat) (syms : List Sym3) (room : syms.length ≤ 16 * k) :
    unpackTri syms.length (packTri k syms) = some syms := by
  induction k generalizing syms with
  | zero =>
    obtain rfl := List.length_eq_zero_iff.1 (Nat.le_zero.1 room)
    rfl
  | succ k ih =>
    rw [packTri, unpackTri, ofNat_natOfSyms_toNat (by simp), Nat.min_comm,
      ← List.length_take, symsOfNat_natOfSyms, ← List.length_drop, ih _ (by simp; omega)]
    exact congrArg some (List.take_append_drop 16 syms)

theorem padOkTri_packTri (k : Nat) (syms : List Sym3) :
    padOkTri syms.length (packTri k syms) = true := by
  induction k generalizing syms with
  | zero => rfl
  | succ k ih =>
    rw [packTri, padOkTri, ofNat_natOfSyms_toNat (by simp), Nat.min_comm, ← List.length_take,
      Nat.div_eq_of_lt (natOfSyms_lt _), ← List.length_drop, ih]
    rfl

/-- The payload words of a sequence have room for it (R85). -/
theorem le_mul_seqWords {per : Nat} (len : Nat) (positive : 0 < per) :
    len ≤ per * seqWords per len := by
  have split := Nat.div_add_mod (len + (per - 1)) per
  have remainder := Nat.mod_lt (len + (per - 1)) positive
  unfold seqWords
  omega

/-! ### Whole packets -/

/-- Format A (R77): the header gives back the status, the channel and the address. -/
theorem decodePacket_formatA {s ga ch : Nat} (hs : s ≤ 1) (hg : ga < 2 ^ 16) (hc : ch < 2 ^ 8) :
    decodePacket (header 5 (s * 2 ^ 27 + ch * 2 ^ 16 + ga)) [] =
      .ok (if s = 1 then .swaOn ga ch else .swaOff ga ch) := by
  have opcode : opc (header 5 (s * 2 ^ 27 + ch * 2 ^ 16 + ga)) = 5 :=
    opc_header (by omega) (by omega)
  have status : field (header 5 (s * 2 ^ 27 + ch * 2 ^ 16 + ga)) 27 1 = s := by
    rw [field_header (by omega) (by omega)]
    omega
  have channel : field (header 5 (s * 2 ^ 27 + ch * 2 ^ 16 + ga)) 16 8 = ch := by
    rw [field_header (by omega) (by omega)]
    omega
  have address : field (header 5 (s * 2 ^ 27 + ch * 2 ^ 16 + ga)) 0 16 = ga := by
    rw [field_header (by omega) (by omega)]
    omega
  simp only [decodePacket, opcode, status, channel, address]
  split <;> rfl

/-- Format B (R78): the header gives back the status and the two codes. -/
theorem decodePacket_formatB {s ac cc : Nat} (hs : s ≤ 1) (ha : ac < 2 ^ 8) (hc : cc < 2 ^ 8) :
    decodePacket (header 6 (s * 2 ^ 27 + ac * 2 ^ 16 + cc * 2 ^ 8)) [] =
      .ok (if s = 1 then .swbOn ac cc else .swbOff ac cc) := by
  have opcode : opc (header 6 (s * 2 ^ 27 + ac * 2 ^ 16 + cc * 2 ^ 8)) = 6 :=
    opc_header (by omega) (by omega)
  have status : field (header 6 (s * 2 ^ 27 + ac * 2 ^ 16 + cc * 2 ^ 8)) 27 1 = s := by
    rw [field_header (by omega) (by omega)]
    omega
  have address : field (header 6 (s * 2 ^ 27 + ac * 2 ^ 16 + cc * 2 ^ 8)) 16 8 = ac := by
    rw [field_header (by omega) (by omega)]
    omega
  have channel : field (header 6 (s * 2 ^ 27 + ac * 2 ^ 16 + cc * 2 ^ 8)) 8 8 = cc := by
    rw [field_header (by omega) (by omega)]
    omega
  simp only [decodePacket, opcode, status, address, channel]
  split <;> rfl

theorem decodePacket_setprotoTbl (p : Proto) :
    decodePacket (header 2 p.inverted.toNat) [p.pulseLength, p.sync.high, p.sync.low, p.zero.high,
      p.zero.low, p.one.high, p.one.low] = .ok (.setprotoTbl p) := by
  have opcode : opc (header 2 p.inverted.toNat) = 2 := by cases p.inverted <;> rfl
  have flag : (field (header 2 p.inverted.toNat) 0 1 == 1) = p.inverted := by
    cases p.inverted <;> rfl
  simp only [decodePacket, opcode, tableOf, flag]
  rfl

theorem decodePacket_sendraw {bits : List Bool} (fits : bits.length ≤ Config.maxLen) :
    decodePacket (header 3 bits.length) (packRaw (seqWords 32 bits.length) bits) =
      .ok (.sendraw bits) := by
  have bound : bits.length < 2 ^ 16 := Nat.lt_succ_of_le fits
  have opcode : opc (header 3 bits.length) = 3 := opc_header (by omega) (by omega)
  have len : field (header 3 bits.length) 0 16 = bits.length := by
    rw [field_header (by omega) (by omega)]
    omega
  simp only [decodePacket, opcode, len, padOkRaw_packRaw, if_true,
    unpackRaw_packRaw _ bits (le_mul_seqWords _ (by omega))]

theorem decodePacket_sendtri {syms : List Sym3} (fits : syms.length ≤ Config.maxLen) :
    decodePacket (header 4 syms.length) (packTri (seqWords 16 syms.length) syms) =
      .ok (.sendtri syms) := by
  have bound : syms.length < 2 ^ 16 := Nat.lt_succ_of_le fits
  have opcode : opc (header 4 syms.length) = 4 := opc_header (by omega) (by omega)
  have len : field (header 4 syms.length) 0 16 = syms.length := by
    rw [field_header (by omega) (by omega)]
    omega
  simp only [decodePacket, opcode, len, padOkTri_packTri, if_true,
    unpackTri_packTri _ syms (le_mul_seqWords _ (by omega))]

theorem decodePacket_addrpat {plen : Nat} {pbits : List Bool} (short : plen < 2 ^ 8)
    (carried : pbits.length = min plen 16) :
    decodePacket (header 7 (plen * 2 ^ 16 + natOfBits pbits)) [] = .ok (.addrpat plen pbits) := by
  have bits : natOfBits pbits < 2 ^ 16 :=
    (natOfBits_lt pbits).trans_le (Nat.pow_le_pow_right (by omega) (by omega))
  have opcode : opc (header 7 (plen * 2 ^ 16 + natOfBits pbits)) = 7 :=
    opc_header (by omega) (by omega)
  have len : field (header 7 (plen * 2 ^ 16 + natOfBits pbits)) 16 8 = plen := by
    rw [field_header (by omega) (by omega)]
    omega
  have pattern : field (header 7 (plen * 2 ^ 16 + natOfBits pbits)) 0 16 = natOfBits pbits := by
    rw [field_header (by omega) (by omega)]
    omega
  simp only [decodePacket, opcode, len, pattern, ← carried, bitsOfNat_natOfBits]

/-- The header and payload of a well-formed command's packet stand for that command (R89). -/
theorem decodePacket_encode {i : Instr} {h : Word} {payload : List Word} (wf : i.WellFormed)
    (packet : encode i = h :: payload) : decodePacket h payload = .ok i := by
  cases i
  all_goals obtain ⟨rfl, rfl⟩ := List.cons.inj packet
  case setprotoRom k =>
    obtain ⟨-, below⟩ := wf
    have opcode : opc (header 1 k) = 1 := opc_header (by omega) (by omega)
    have index : field (header 1 k) 0 4 = k := by
      rw [field_header (by omega) (by omega)]
      omega
    simp only [decodePacket, opcode, index]
  case setprotoTbl p =>
    exact decodePacket_setprotoTbl p
  case sendraw bits =>
    exact decodePacket_sendraw wf
  case sendtri syms =>
    exact decodePacket_sendtri wf
  case swaOn ga ch =>
    obtain ⟨address, positive, channel⟩ := wf
    lift ch to Nat using positive
    exact decodePacket_formatA (s := 1) (by omega) address (by omega)
  case swaOff ga ch =>
    obtain ⟨address, positive, channel⟩ := wf
    lift ch to Nat using positive
    simpa using decodePacket_formatA (s := 0) (by omega) address (ch := ch) (by omega)
  case swbOn ac cc =>
    obtain ⟨⟨positiveA, address⟩, positiveC, channel⟩ := wf
    lift ac to Nat using positiveA
    lift cc to Nat using positiveC
    exact decodePacket_formatB (s := 1) (by omega) (by omega) (by omega)
  case swbOff ac cc =>
    obtain ⟨⟨positiveA, address⟩, positiveC, channel⟩ := wf
    lift ac to Nat using positiveA
    lift cc to Nat using positiveC
    simpa using decodePacket_formatB (s := 0) (by omega) (ac := ac) (by omega) (cc := cc) (by omega)
  case addrpat plen pbits =>
    obtain ⟨short, carried⟩ := wf
    exact decodePacket_addrpat short carried

/-- The length rule of R85 for every well-formed command. -/
theorem payloadWords_encode {i : Instr} (wf : i.WellFormed) :
    ∃ h payload, encode i = h :: payload ∧ payloadWords h = .ok payload.length := by
  cases i with
  | setprotoRom k => exact Laws.PacketLength.setprotoRom k wf
  | setprotoTbl p => exact Laws.PacketLength.setprotoTbl p wf
  | sendraw bits => exact Laws.PacketLength.sendraw bits wf
  | sendtri syms => exact Laws.PacketLength.sendtri syms wf
  | swaOn ga ch => exact Laws.PacketLength.swaOn ga ch wf
  | swaOff ga ch => exact Laws.PacketLength.swaOff ga ch wf
  | swbOn ac cc => exact Laws.PacketLength.swbOn ac cc wf
  | swbOff ac cc => exact Laws.PacketLength.swbOff ac cc wf
  | addrpat plen pbits => exact Laws.PacketLength.addrpat plen pbits wf

/-- A header whose payload is all there makes one packet, and the words behind it are left
(R52, R85). -/
theorem decode_cons_append {h : Word} {payload : List Word} {i : Instr} (rest : List Word)
    (len : payloadWords h = .ok payload.length) (packet : decodePacket h payload = .ok i) :
    decode (h :: (payload ++ rest)) = .command i rest := by
  simp [decode, len, packet]

theorem decode_encode_append {i : Instr} (wf : i.WellFormed) (rest : List Word) :
    decode (encode i ++ rest) = .command i rest := by
  obtain ⟨h, payload, packet, len⟩ := payloadWords_encode wf
  rw [packet, List.cons_append]
  exact decode_cons_append rest len (decodePacket_encode wf packet)

end Sys2Proof
end

section
/-! The sequencer's small steps hand over the events of the big-step `sendEvents` (R166). The idea:
a position determines the list of events still to come, and every step takes its head. -/

namespace Sys2Proof

namespace Machine

/-! ### The events still to come -/

/-- The events of an emission from a phase on (R163). -/
def emissionFrom (p : Proto) (w : Waveform) : Phase → List Event
  | .driveHigh => emit p w
  | .delayHigh => [phaseEvent p w .delayHigh, phaseEvent p w .driveLow, phaseEvent p w .delayLow]
  | .driveLow => [phaseEvent p w .driveLow, phaseEvent p w .delayLow]
  | .delayLow => [phaseEvent p w .delayLow]

/-- The second emission of a slot, where the slot has one and it is still to come (R162). -/
def secondEmission (p : Proto) (b : Buf) (slot : Nat) : Sub → List Event
  | .first => if b.twoEmissions slot then emit p (b.wave p slot .second) else []
  | .second => []

/-- All events of a slot (R162). -/
def slotEvents (p : Proto) (b : Buf) (slot : Nat) : List Event :=
  emit p (b.wave p slot .first) ++ secondEmission p b slot .first

/-- The events of a pass from a slot on, the sync slot `N` last (R164). -/
def slotsFrom (p : Proto) (b : Buf) (slot : Nat) : List Event :=
  (List.range' slot (b.len + 1 - slot)).flatMap (slotEvents p b)

/-- What a send in progress has still to hand over. -/
def remaining (s : State) : List Event :=
  if s.passesLeft then
    emissionFrom s.proto (s.buf.wave s.proto s.slot s.sub) s.ph ++
      secondEmission s.proto s.buf s.slot s.sub ++ slotsFrom s.proto s.buf (s.slot + 1) ++
      sendEvents s.cfg.idlePolicy s.proto (s.repeatCount.toNat - (s.rep.toNat + 1)) s.buf
  else [closingEvent s]

theorem slotsFrom_eq_append {p : Proto} {b : Buf} {slot : Nat} (inside : slot ≤ b.len) :
    slotsFrom p b slot = slotEvents p b slot ++ slotsFrom p b (slot + 1) := by
  have count : b.len + 1 - slot = (b.len + 1 - (slot + 1)) + 1 := by omega
  rw [slotsFrom, count, List.range'_succ, List.flatMap_cons, slotsFrom]

theorem slotsFrom_past {p : Proto} {b : Buf} {slot : Nat} (past : b.len < slot) :
    slotsFrom p b slot = [] := by
  have count : b.len + 1 - slot = 0 := by omega
  rw [slotsFrom, count]
  rfl

/-! ### A pass, slot by slot -/

/-- A symbol's slot in mode TRI renders the symbol (R152, R162). -/
theorem slotEvents_tri {syms : List Sym3} {slot : Nat} (p : Proto) (inside : slot < syms.length) :
    slotEvents p (.tri syms) slot = mapTri p syms[slot] := by
  cases h : syms[slot] <;>
    simp [slotEvents, secondEmission, Buf.twoEmissions, Buf.wave, h, inside, mapTri]

/-- A symbol's slot in mode RAW renders the symbol (R153, R162). -/
theorem slotEvents_raw {bits : List Bool} {slot : Nat} (p : Proto) (inside : slot < bits.length) :
    slotEvents p (.raw bits) slot = mapRaw p bits[slot] := by
  have symbol : bits[slot]? = some bits[slot] := List.getElem?_eq_getElem inside
  cases h : bits[slot] <;>
    simp [slotEvents, secondEmission, Buf.twoEmissions, Buf.wave, symbol, h, mapRaw]

/-- Slot `N` is the sync waveform, once (R162). -/
theorem slotEvents_sync (p : Proto) (b : Buf) : slotEvents p b b.len = emit p p.sync := by
  cases b <;> simp [slotEvents, secondEmission, Buf.twoEmissions, Buf.wave, Buf.len]

/-- Appending what each place of a list gives is appending what each element gives. -/
theorem flatMap_range'_eq_flatMap {α β : Type} {f : α → List β} {g : Nat → List β} {xs : List α}
    (agree : ∀ i (h : i < xs.length), g i = f xs[i]) :
    (List.range' 0 xs.length).flatMap g = xs.flatMap f := by
  rw [List.flatMap_def, List.flatMap_def]
  refine congrArg List.flatten (List.ext_getElem (by simp) fun i _ inside => ?_)
  simpa using agree i (by simpa using inside)

/-- The slots from 0 on are the pass (R154, R166). -/
theorem slotsFrom_zero (p : Proto) (b : Buf) : slotsFrom p b 0 = passEvents p b := by
  have symbols : (List.range' 0 b.len).flatMap (slotEvents p b) = symbolEvents p b := by
    cases b with
    | tri syms =>
      exact flatMap_range'_eq_flatMap fun _ inside => slotEvents_tri p inside
    | raw bits =>
      exact flatMap_range'_eq_flatMap fun _ inside => slotEvents_raw p inside
  rw [slotsFrom, Nat.sub_zero, List.range'_concat, List.flatMap_append, symbols, Nat.zero_add,
    Nat.one_mul, List.flatMap_singleton, slotEvents_sync, passEvents]

/-- A send of one pass more (R155). -/
theorem sendEvents_succ (policy : Config.IdlePolicy) (p : Proto) (r : Nat) (b : Buf) :
    sendEvents policy p (r + 1) b = passEvents p b ++ sendEvents policy p r b := by
  simp [sendEvents]

/-- At the start of a pass all of its events and those of the passes after it are still to come;
with no pass left, the closing drive is. -/
theorem remaining_at_pass_start {s : State} (slot : s.slot = 0) (sub : s.sub = .first)
    (ph : s.ph = .driveHigh) :
    remaining s =
      sendEvents s.cfg.idlePolicy s.proto (s.repeatCount.toNat - s.rep.toNat) s.buf := by
  by_cases left : s.passesLeft
  · have count : s.repeatCount.toNat - s.rep.toNat =
        (s.repeatCount.toNat - (s.rep.toNat + 1)) + 1 := by
      have := (passesLeft_iff s).1 left
      omega
    rw [remaining, if_pos left, count, sendEvents_succ, ← slotsFrom_zero,
      slotsFrom_eq_append (Nat.zero_le _), slot, sub, ph]
    rfl
  · have count : s.repeatCount.toNat - s.rep.toNat = 0 := by
      have := mt (passesLeft_iff s).2 left
      omega
    rw [remaining, if_neg left, count]
    rfl

/-- At its start a send has all of its events still to come (R155, R161). -/
theorem remaining_at_send_start {s : State} (start : s.AtSendStart) :
    remaining s = sendEvents s.cfg.idlePolicy s.proto s.repeatCount.toNat s.buf := by
  obtain ⟨-, rep, slot, sub, ph⟩ := start
  rw [remaining_at_pass_start slot sub ph, rep]
  rfl

/-! ### Each step takes the head -/

/-- At the end of an emission that is not the first of two, the slots after this one are to come
(R164). -/
theorem secondEmission_eq_nil {p : Proto} {b : Buf} {slot : Nat} {sub : Sub}
    (last : ¬ (sub = .first ∧ b.twoEmissions slot = true)) : secondEmission p b slot sub = [] := by
  cases sub with
  | first => exact if_neg fun two => last ⟨rfl, two⟩
  | second => rfl

/-- Within an emission the next phase stands at the rest of what remains (R164). -/
theorem remaining_next_phase {s : State} {next : Phase} (left : s.passesLeft)
    (head : ∀ p w, emissionFrom p w s.ph = phaseEvent p w s.ph :: emissionFrom p w next) :
    remaining s = positionEvent s :: remaining { s with ph := next } := by
  rw [remaining, if_pos left, remaining, if_pos left, head]
  rfl

/-- The next position stands at the rest of what remains (R164). -/
theorem remaining_advance {s : State} (left : s.passesLeft) :
    remaining s = positionEvent s :: remaining (advance s) := by
  rcases advance_cases s with ⟨ph, next⟩ | ⟨ph, next⟩ | ⟨ph, next⟩ | ⟨ph, sub, two, next⟩ |
    ⟨ph, last, inside, next⟩ | ⟨ph, last, past, next⟩
  · rw [next]
    exact remaining_next_phase left fun _ _ => by rw [ph]; rfl
  · rw [next]
    exact remaining_next_phase left fun _ _ => by rw [ph]; rfl
  · rw [next]
    exact remaining_next_phase left fun _ _ => by rw [ph]; rfl
  · rw [next, remaining, if_pos left, remaining, if_pos left, positionEvent, ph, sub]
    simp [secondEmission, two, emissionFrom]
  · rw [next, remaining, if_pos left, remaining, if_pos left, positionEvent, ph,
      secondEmission_eq_nil last, slotsFrom_eq_append inside]
    simp [slotEvents, emissionFrom]
  · have restart := remaining_at_pass_start (s := advance s) (by rw [next]) (by rw [next])
      (by rw [next])
    rw [restart, next, remaining, if_pos left, positionEvent, ph, secondEmission_eq_nil last,
      slotsFrom_past (by omega), rep_succ_toNat left]
    rfl

/-- With no pass left the closing drive alone remains (R165). -/
theorem remaining_closing {s : State} (done : ¬ s.passesLeft) : remaining s = [closingEvent s] :=
  if_neg done

theorem remaining_eventStep {s : State} (left : s.passesLeft) :
    remaining s = positionEvent s :: remaining (eventStep s) :=
  remaining_advance (s := complete (positionEvent s) s) left

/-! ### The whole send -/

/-- The state `t` is `s` with the send of `es` behind it (R165): the level of the closing drive,
IDLE, OK on offer; the latch and the position are meaningless in IDLE. -/
def State.SendEnds (s : State) (es : List Event) (t : State) : Prop :=
  t = { s with events := s.events ++ es
               pinLevel := some (idleLevel s.cfg.idlePolicy s.proto)
               seqState := .idle
               rsp := some .ok
               buf := t.buf, rep := t.rep, slot := t.slot, sub := t.sub, ph := t.ph }

/-- The closing step ends the send. -/
theorem endSend_sendEnds (s : State) : s.SendEnds [closingEvent s] (endSend s) := rfl

/-- An event step before the rest of a send is a send with one event more. -/
theorem sendEnds_of_eventStep {s t : State} {es : List Event}
    (rest : (eventStep s).SendEnds es t) : s.SendEnds (positionEvent s :: es) t := by
  have frame := advance_eq_with_position (complete (positionEvent s) s)
  unfold State.SendEnds at rest ⊢
  rw [eventStep, frame] at rest
  rw [rest]
  simp [complete, List.append_assoc]

/-- R166 from any position of a send: a step for each event that remains, and the send ends. -/
theorem steps_remaining {s : State} (rst : s.rst = false) (sending : s.seqState = .transmitting)
    (ready : s.ioReady = true) :
    ∃ t, steps (remaining s).length s = .next t ∧ s.SendEnds (remaining s) t := by
  generalize events : remaining s = es
  induction es generalizing s with
  | nil =>
    by_cases left : s.passesLeft
    · simp [remaining_eventStep left] at events
    · simp [remaining_closing left] at events
  | cons e es ih =>
    have first := step_transmitting rst sending
    rcases transmitStep_cases s with ⟨waiting, -⟩ | ⟨-, left, hands⟩ | ⟨-, done, ends⟩
    · simp [ready] at waiting
    · rw [remaining_eventStep left] at events
      obtain ⟨rfl, rfl⟩ := List.cons.inj events
      obtain ⟨t, run, ended⟩ := ih (s := eventStep s) (by simpa [eventStep] using rst)
        (by simpa [eventStep] using sending) (by simpa [eventStep] using ready) rfl
      exact ⟨t, by rw [List.length_cons, steps_succ_of_next _ first, hands, run],
        sendEnds_of_eventStep ended⟩
    · rw [remaining_closing done] at events
      obtain ⟨rfl, rfl⟩ := List.cons.inj events
      exact ⟨endSend s, by rw [List.length_singleton, steps_succ_of_next 0 first, ends, steps_zero],
        endSend_sendEnds s⟩

/-- R166: from its start a send hands over `sendEvents`, one event a step. -/
theorem steps_send {s : State} (start : s.AtSendStart) (rst : s.rst = false)
    (ready : s.ioReady = true) :
    ∃ t, steps (sendEvents s.cfg.idlePolicy s.proto s.repeatCount.toNat s.buf).length s = .next t ∧
      s.SendEnds (sendEvents s.cfg.idlePolicy s.proto s.repeatCount.toNat s.buf) t := by
  rw [← remaining_at_send_start start]
  exact steps_remaining rst start.1 ready

end Machine

end Sys2Proof
end

section
/-! The machine runs commands as the abstract level says (R59, R231): a command begins as an answer
or as a send, each comes back to a ready state, and a list of commands is one after another. -/

namespace Sys2Proof

namespace Machine

/-! ### How a command begins -/

/-- In IDLE with no response on offer a whole packet is its command, run with the words after the
packet left in the stream (R52, R62). -/
theorem step_of_decode_command {s : State} {i : Instr} {rest : List Word} (rst : s.rst = false)
    (idle : s.seqState = .idle) (noOffer : s.rsp = none)
    (decoded : decode (s.pkt ++ s.cmdIn) = .command i rest) :
    step s = exec i { s with pkt := [], cmdIn := rest } := by
  have fetched : fetch s = .command i { s with pkt := [], cmdIn := rest } := by
    simp only [fetch, decoded]
  simp only [step_fetch rst idle noOffer, fetched]

/-- A command at its first step from `s`, and its whole effect `a` at the abstract level: either it
answers at once, maybe with a new table, or it starts a send with the pin present. -/
inductive Begins (s : State) : State → Abs → Prop
  | answer (p : Proto) (r : Resp) :
    Begins s (respond r (writeProto p s)) (Abs.answer r { s.abs with proto := p })
  | start (b : Buf) (present : s.pinPresent = true) :
    Begins s (startSend b s) (s.abs.send s.cfg true b)

/-- An answer that leaves the table as it is. -/
theorem begins_respond (r : Resp) (s : State) : Begins s (respond r s) (s.abs.answer r) :=
  .answer s.proto r

theorem begins_send (b : Buf) (s : State) :
    Begins s (send b s) (s.abs.send s.cfg s.pinPresent b) := by
  rcases send_cases b s with ⟨present, starts⟩ | ⟨absent, answers⟩
  · rw [starts, present]
    exact .start b present
  · rw [answers, absent]
    exact begins_respond .ok s

theorem begins_switchA (ga : Nat) (ch : Int) (on : Bool) (s : State) :
    Begins s (switchA ga ch on s) (s.abs.switchA s.cfg s.pinPresent ga ch on) := by
  unfold switchA Abs.switchA
  cases validA s.cfg.swaFaultOrder ga ch with
  | some e => exact begins_respond (.err e) s
  | none => exact begins_send _ s

theorem begins_switchB (ac cc : Int) (on : Bool) (s : State) :
    Begins s (switchB ac cc on s) (s.abs.switchB s.cfg s.pinPresent ac cc on) := by
  unfold switchB Abs.switchB invalidB
  cases encB ac cc on with
  | some cw => exact begins_send _ s
  | none =>
    cases s.cfg.typeBInvalid with
    | noActivity => exact begins_respond .ok s
    | emptySend => exact begins_send _ s

/-- Every well-formed command begins, and the abstract level has its effect. -/
theorem exec_begins {i : Instr} (wf : i.WellFormed) (s : State) :
    ∃ t a, exec i s = .next t ∧ s.abs.command s.cfg s.pinPresent i = some a ∧ Begins s t a := by
  cases i with
  | setprotoRom k =>
    obtain ⟨p, row⟩ := rom_of_range wf.1 wf.2
    exact ⟨_, _, by simp only [exec, execSetprotoRom, row], by simp only [Abs.command, row]; rfl,
      .answer p .ok⟩
  | setprotoTbl p => exact ⟨_, _, if_pos wf, if_pos wf, .answer p .ok⟩
  | sendraw bits => exact ⟨_, _, rfl, rfl, begins_send _ s⟩
  | sendtri syms => exact ⟨_, _, rfl, rfl, begins_send _ s⟩
  | swaOn ga ch => exact ⟨_, _, rfl, rfl, begins_switchA ..⟩
  | swaOff ga ch => exact ⟨_, _, rfl, rfl, begins_switchA ..⟩
  | swbOn ac cc => exact ⟨_, _, rfl, rfl, begins_switchB ..⟩
  | swbOff ac cc => exact ⟨_, _, rfl, rfl, begins_switchB ..⟩
  | addrpat plen pbits =>
    by_cases other : plen ≠ 5
    · exact ⟨_, _, if_pos other, if_pos other, begins_respond (.err .invalidAddress) s⟩
    · have five : ¬ pbits.length ≠ 5 := by
        have carried : pbits.length = min plen 16 := wf.2
        omega
      exact ⟨_, _, (if_neg other).trans (if_neg five), (if_neg other).trans (if_neg five),
        begins_respond (.okv (addressOf pbits)) s⟩

/-! ### How a command ends -/

/-- The block is ready again with `a` to show and one response more, its inputs, parameters and
stream as in `s`. -/
structure ReadyAgain (s : State) (a : Abs) (t : State) : Prop where
  ready : t.Ready
  responsive : t.Responsive
  cfg : t.cfg = s.cfg
  pinPresent : t.pinPresent = s.pinPresent
  cmdIn : t.cmdIn = s.cmdIn
  shows : t.abs = a
  answered : t.responses.length = s.responses.length + 1

/-- The step in which the host takes the response on offer (R35, R53). -/
theorem step_hands_over {s : State} {r : Resp} (rst : s.rst = false) (idle : s.seqState = .idle)
    (offer : s.rsp = some r) (ready : s.rspReady = true) :
    step s = .next { s with rsp := none, responses := s.responses ++ [r] } := by
  rw [step_response rst idle offer, handResponse, if_pos ready]

/-- What has begun in a ready state comes back to a ready state with its whole effect: at once for
an answer, after all events of the send otherwise. -/
theorem begins_completes {s t : State} {a : Abs} (ready : s.Ready) (duty : s.Responsive)
    (begun : Begins s t a) : ∃ n u, steps n t = .next u ∧ ReadyAgain s a u := by
  obtain ⟨idle, -, pkt, rst⟩ := ready
  obtain ⟨ioReady, rspReady⟩ := duty
  cases begun with
  | answer p r =>
    have handed := step_hands_over (s := respond r (writeProto p s)) rst idle rfl rspReady
    exact ⟨1, _, steps_succ_of_next 0 handed, ⟨idle, rfl, pkt, rst⟩, ⟨ioReady, rspReady⟩, rfl, rfl,
      rfl, rfl, List.length_append⟩
  | start b present =>
    obtain ⟨v, run, ended⟩ :=
      steps_send (s := startSend b s) ⟨rfl, rfl, rfl, rfl, rfl⟩ rst ioReady
    unfold State.SendEnds at ended
    have handed : step v = .next { v with rsp := none, responses := v.responses ++ [.ok] } :=
      step_hands_over (by rw [ended]; exact rst) (by rw [ended]) (by rw [ended])
        (by rw [ended]; exact rspReady)
    refine ⟨_ + 1, _, (steps_add 1 run).trans (steps_succ_of_next 0 handed), ?_⟩
    rw [ended]
    exact ⟨⟨rfl, rfl, pkt, rst⟩, ⟨ioReady, rspReady⟩, rfl, rfl, rfl, rfl, List.length_append⟩

/-- One command: from its packet at the head of the stream to the next ready state. -/
theorem command_runs {s : State} {i : Instr} {rest : List Word} (ready : s.Ready)
    (duty : s.Responsive) (wf : i.WellFormed) (packet : s.cmdIn = encode i ++ rest) :
    ∃ n t a, steps n s = .next t ∧ s.abs.command s.cfg s.pinPresent i = some a ∧
      ReadyAgain { s with cmdIn := rest } a t := by
  obtain ⟨idle, noOffer, pkt, rst⟩ := ready
  obtain ⟨u, a, runs, effect, begun⟩ := exec_begins wf { s with cmdIn := rest }
  have decoded : decode (s.pkt ++ s.cmdIn) = .command i rest := by
    rw [pkt, packet]
    exact decode_encode_append wf rest
  have first : step s = .next u := by
    rw [step_of_decode_command rst idle noOffer decoded, ← pkt]
    exact runs
  obtain ⟨n, t, run, again⟩ := begins_completes (s := { s with cmdIn := rest })
    ⟨idle, noOffer, pkt, rst⟩ duty begun
  exact ⟨n + 1, t, a, (steps_succ_of_next n first).trans run, effect, again⟩

/-! ### Lists of commands -/

/-- Settles O48, by induction on the list of commands: the first command comes back to a ready
state at the front of the packets of the others, and runs compose. -/
theorem commandsRunAsTheAbstractLevelSays :
    Obligations.CommandsRunAsTheAbstractLevelSays := by
  intro s cmds rest ready duty wf stream
  induction cmds generalizing s with
  | nil => exact ⟨0, s, rfl, ready, stream, rfl, rfl⟩
  | cons i others ih =>
    obtain ⟨wfFirst, wfOthers⟩ := List.forall_mem_cons.1 wf
    rw [List.flatMap_cons, List.append_assoc] at stream
    obtain ⟨n, t, a, run, effect, again⟩ := command_runs ready duty wfFirst stream
    obtain ⟨m, u, runOthers, readyEnd, streamEnd, effects, answers⟩ :=
      ih t again.ready again.responsive wfOthers again.cmdIn
    rw [again.shows, again.cfg, again.pinPresent] at effects
    rw [again.answered] at answers
    refine ⟨n + m, u, (steps_add m run).trans runOthers, readyEnd, streamEnd, ?_, ?_⟩
    · simpa only [Abs.commands, effect] using effects
    · rw [answers, List.length_cons]
      exact Nat.add_right_comm _ 1 _

end Machine

end Sys2Proof
end

section
/-! What a step leaves unchanged (R26, R27, R35): the table in force, the parameters and the inputs,
the stream and the responses returned. -/

namespace Sys2Proof

namespace Machine

/-! ### The table in force, the parameters and the inputs -/

/-- `PROTO`, `REPEAT`, the parameters and the inputs are as they were (R26, R27, R32, R35). -/
structure State.SameSettings (s t : State) : Prop where
  proto : t.proto = s.proto
  repeatCount : t.repeatCount = s.repeatCount
  cfg : t.cfg = s.cfg
  rst : t.rst = s.rst
  pinPresent : t.pinPresent = s.pinPresent
  ioReady : t.ioReady = s.ioReady
  rspReady : t.rspReady = s.rspReady

/-- A step of a send writes the sequencer, the pin's shadow, the event list and the offer only
(R163 to R165). -/
theorem transmitStep_frame (s : State) :
    s.SameSettings (transmitStep s) ∧ (transmitStep s).cmdIn = s.cmdIn ∧
      (transmitStep s).responses = s.responses := by
  rcases transmitStep_cases s with ⟨-, waits⟩ | ⟨-, -, hands⟩ | ⟨-, -, ends⟩
  · rw [waits]
    exact ⟨⟨rfl, rfl, rfl, rfl, rfl, rfl, rfl⟩, rfl, rfl⟩
  · rw [hands, eventStep, advance_eq_with_position]
    exact ⟨⟨rfl, rfl, rfl, rfl, rfl, rfl, rfl⟩, rfl, rfl⟩
  · rw [ends]
    exact ⟨⟨rfl, rfl, rfl, rfl, rfl, rfl, rfl⟩, rfl, rfl⟩

theorem handResponse_sameSettings (r : Resp) (s : State) : s.SameSettings (handResponse r s) := by
  rcases handResponse_cases r s with ⟨-, taken⟩ | ⟨-, waits⟩
  · rw [taken]
    exact ⟨rfl, rfl, rfl, rfl, rfl, rfl, rfl⟩
  · rw [waits]
    exact ⟨rfl, rfl, rfl, rfl, rfl, rfl, rfl⟩

/-! ### A command and the table -/

@[simp] theorem send_proto (b : Buf) (s : State) : (send b s).proto = s.proto := by
  rcases send_cases b s with ⟨-, starts⟩ | ⟨-, answers⟩
  · rw [starts, startSend_proto]
  · rw [answers, respond_proto]

@[simp] theorem switchA_proto (ga : Nat) (ch : Int) (on : Bool) (s : State) :
    (switchA ga ch on s).proto = s.proto := by
  unfold switchA
  split
  · exact respond_proto _ s
  · exact send_proto _ s

@[simp] theorem switchB_proto (ac cc : Int) (on : Bool) (s : State) :
    (switchB ac cc on s).proto = s.proto := by
  unfold switchB
  split
  · exact send_proto _ s
  · unfold invalidB
    split
    · exact respond_proto _ s
    · exact send_proto _ s

/-- A command leaves `PROTO` or is the SETPROTO of the table it leaves there (R26, R108). -/
theorem exec_proto {i : Instr} {s t : State} (h : exec i s = .next t) :
    t.proto = s.proto ∨ (∃ k, i = .setprotoRom k ∧ rom k = some t.proto) ∨
      i = .setprotoTbl t.proto := by
  cases i with
  | setprotoRom k =>
    simp only [exec, execSetprotoRom] at h
    split at h
    · next p row =>
      obtain rfl := Host.Outcome.next.inj h
      exact .inr (.inl ⟨k, rfl, row⟩)
    · cases h
  | setprotoTbl p =>
    simp only [exec, execSetprotoTbl] at h
    split at h
    · obtain rfl := Host.Outcome.next.inj h
      exact .inr (.inr rfl)
    · cases h
  | sendraw bits => exact .inl (Host.Outcome.next.inj h ▸ send_proto _ s)
  | sendtri syms => exact .inl (Host.Outcome.next.inj h ▸ send_proto _ s)
  | swaOn ga ch => exact .inl (Host.Outcome.next.inj h ▸ switchA_proto ga ch true s)
  | swaOff ga ch => exact .inl (Host.Outcome.next.inj h ▸ switchA_proto ga ch false s)
  | swbOn ac cc => exact .inl (Host.Outcome.next.inj h ▸ switchB_proto ac cc true s)
  | swbOff ac cc => exact .inl (Host.Outcome.next.inj h ▸ switchB_proto ac cc false s)
  | addrpat plen pbits =>
    simp only [exec, execAddrpat] at h
    split at h
    · exact .inl (Host.Outcome.next.inj h ▸ respond_proto _ s)
    · split at h
      · cases h
      · exact .inl (Host.Outcome.next.inj h ▸ respond_proto _ s)

/-- No command writes a surrounding (R20, R27, R34). -/
theorem exec_sameSurroundings {i : Instr} {s t : State} (h : exec i s = .next t) :
    s.SameSurroundings t := by
  rcases exec_cases h with ⟨p, -, rfl⟩ | ⟨b, -, rfl⟩ | ⟨r, -, rfl⟩ <;>
    exact ⟨rfl, rfl, rfl, rfl, rfl, rfl, rfl, rfl, rfl, rfl, rfl⟩

/-- Settles O35: of the three things a command can do, installing a table and answering leave the
sequencer, and the start of a send leaves the rest. -/
theorem commandFrame : Obligations.CommandFrame := by
  intro i s t h
  refine ⟨exec_sameSurroundings h, exec_proto h, ?_⟩
  rcases exec_cases h with ⟨p, -, rfl⟩ | ⟨b, present, rfl⟩ | ⟨r, -, rfl⟩
  · exact .inl ⟨rfl, rfl, rfl, rfl, rfl, rfl⟩
  · exact .inr ⟨present, ⟨rfl, rfl, rfl, rfl, rfl⟩, rfl, rfl⟩
  · exact .inl ⟨rfl, rfl, rfl, rfl, rfl, rfl⟩

/-- A command leaves every setting, or is a SETPROTO that installs a well-formed table and answers
OK (R104, R105). -/
theorem exec_settings {i : Instr} {s t : State} (h : exec i s = .next t) :
    s.SameSettings t ∨
    ((∃ k, i = .setprotoRom k) ∨ ∃ p, i = .setprotoTbl p) ∧
      ∃ p, p.WellFormed ∧ t = respond .ok (writeProto p s) := by
  rcases exec_cases h with ⟨p, wf, rfl⟩ | ⟨b, -, rfl⟩ | ⟨r, -, rfl⟩
  · rcases exec_proto h with same | ⟨k, row, -⟩ | tbl
    · exact .inl ⟨same, rfl, rfl, rfl, rfl, rfl, rfl⟩
    · exact .inr ⟨.inl ⟨k, row⟩, p, wf, rfl⟩
    · exact .inr ⟨.inr ⟨_, tbl⟩, p, wf, rfl⟩
  · exact .inl ⟨rfl, rfl, rfl, rfl, rfl, rfl, rfl⟩
  · exact .inl ⟨rfl, rfl, rfl, rfl, rfl, rfl, rfl⟩

/-! ### A step and the settings -/

/-- A step resets, leaves every setting, or runs a SETPROTO in IDLE with no response on offer
(R26, R108). -/
theorem step_settings {s t : State} (h : step s = .next t) :
    (s.rst = true ∧ t = applyReset s) ∨ s.SameSettings t ∨
    (s.seqState = .idle ∧ s.rsp = none ∧
      ∃ i rest, decode (s.pkt ++ s.cmdIn) = .command i rest ∧
        ((∃ k, i = .setprotoRom k) ∨ ∃ p, i = .setprotoTbl p) ∧
        ∃ p, p.WellFormed ∧
          t = respond .ok (writeProto p { s with pkt := [], cmdIn := rest })) := by
  rcases step_cases h with reset | ⟨-, -, rfl⟩ | ⟨-, -, r, -, rfl⟩ | ⟨-, -, -, -, rfl⟩ |
    ⟨-, idle, noOffer, i, rest, decoded, runs⟩
  · exact .inl reset
  · exact .inr (.inl (transmitStep_frame s).1)
  · exact .inr (.inl (handResponse_sameSettings r s))
  · exact .inr (.inl ⟨rfl, rfl, rfl, rfl, rfl, rfl, rfl⟩)
  · rcases exec_settings runs with ⟨proto, repeatCount, cfg, rst, pin, io, rsp⟩ | installs
    · exact .inr (.inl ⟨proto, repeatCount, cfg, rst, pin, io, rsp⟩)
    · exact .inr (.inr ⟨idle, noOffer, i, rest, decoded, installs⟩)

/-- Settles O5: a reset installs the parameter's table, a SETPROTO a well-formed one, and no other
step writes either. -/
theorem tablesStayWellFormed : Obligations.TablesStayWellFormed := by
  rintro s t ⟨inForce, atReset⟩ h
  rcases step_settings h with ⟨-, rfl⟩ | same | ⟨-, -, i, rest, -, -, p, wf, rfl⟩
  · exact ⟨atReset, atReset⟩
  · rw [State.TablesWellFormed, same.proto, same.cfg]
    exact ⟨inForce, atReset⟩
  · exact ⟨wf, atReset⟩

/-- Settles O47: out of reset only the SETPROTO case of a step changes a setting, and that one is
`PROTO`. -/
theorem onlySetprotoWritesTheTable : Obligations.OnlySetprotoWritesTheTable := by
  intro s t rst h
  rcases step_settings h with ⟨reset, -⟩ | same |
    ⟨idle, noOffer, i, rest, decoded, setproto, p, -, rfl⟩
  · simp [rst] at reset
  · exact ⟨same.repeatCount, same.cfg, same.rst, same.pinPresent, same.ioReady, same.rspReady,
      fun changed => absurd same.proto changed⟩
  · exact ⟨rfl, rfl, rfl, rfl, rfl, rfl,
      fun _ => ⟨idle, noOffer, rfl, i, rest, decoded, setproto⟩⟩

end Machine

end Sys2Proof
end

section
/-! The ports (R33, R35): what each shows, and what a step does through the host's. -/

namespace Sys2Proof

namespace Machine

/-! ### The host's ports -/

/-- Under reset no response is offered (R220). -/
theorem rspPort_of_reset {s : State} (rst : s.rst = true) : rspPort s = none := if_pos rst

/-- Out of reset the port shows the response on offer (R35, R82). -/
theorem rspPort_of_run {s : State} (rst : s.rst = false) : rspPort s = s.rsp.map Resp.word := by
  rw [rspPort, rst, if_neg Bool.false_ne_true]

theorem cmdReady_iff (s : State) :
    cmdReady s = true ↔ s.rst = false ∧ s.seqState = .idle ∧ s.rsp = none := by
  simp [cmdReady, and_assoc]

/-- Settles O45: a response on offer is handed over or waits, and the step is that alone. -/
theorem responseBeforeTheNextCommand : Obligations.ResponseBeforeTheNextCommand := by
  intro s r rst idle offer
  refine ⟨step_hands_over rst idle offer, fun busy => ?_⟩
  rcases handResponse_cases r s with ⟨ready, -⟩ | ⟨-, waits⟩
  · simp [busy] at ready
  · rw [step_response rst idle offer, waits]

/-- What a step does to the stream and the responses returned: nothing, words taken in IDLE with no
response on offer, or the response on offer handed over (R35, R53). -/
theorem step_handshake {s t : State} (h : step s = .next t) :
    (t.cmdIn = s.cmdIn ∧ t.responses = s.responses) ∨
    (s.rst = false ∧ s.seqState = .idle ∧ s.rsp = none ∧ t.responses = s.responses) ∨
    ∃ r, s.rst = false ∧ s.rsp = some r ∧ s.rspReady = true ∧
      t = { s with rsp := none, responses := s.responses ++ [r] } := by
  rcases step_cases h with ⟨-, rfl⟩ | ⟨-, -, rfl⟩ | ⟨rst, -, r, offer, rfl⟩ |
    ⟨rst, idle, noOffer, -, rfl⟩ | ⟨rst, idle, noOffer, i, rest, -, runs⟩
  · exact .inl ⟨rfl, rfl⟩
  · exact .inl (transmitStep_frame s).2
  · rcases handResponse_cases r s with ⟨ready, taken⟩ | ⟨-, waits⟩
    · exact .inr (.inr ⟨r, rst, offer, ready, taken⟩)
    · exact .inl (by rw [waits]; exact ⟨rfl, rfl⟩)
  · exact .inr (.inl ⟨rst, idle, noOffer, rfl⟩)
  · obtain ⟨-, -, -, -, -, -, -, -, -, -, responses⟩ := exec_sameSurroundings runs
    exact .inr (.inl ⟨rst, idle, noOffer, responses⟩)

/-- Settles O55: the ports are read off the state, and a step moves words and responses as
`step_handshake` says. -/
theorem hostPortsFollowTheHandshake : Obligations.HostPortsFollowTheHandshake := by
  refine ⟨fun s => ⟨fun rst => ⟨rspPort_of_reset rst, by simp [cmdReady, rst]⟩, fun rst => ?_⟩,
    fun s t h => ?_⟩
  · rw [rspPort_of_run rst, cmdReady_iff]
    exact ⟨fun r offer => by rw [offer]; rfl, fun noOffer => by rw [noOffer]; rfl,
      and_iff_right rst⟩
  · rcases step_handshake h with ⟨stream, responses⟩ | ⟨rst, idle, noOffer, responses⟩ |
      ⟨r, rst, offer, ready, rfl⟩
    · exact ⟨fun taken => absurd stream taken, fun added => absurd responses added⟩
    · exact ⟨fun _ => ⟨(cmdReady_iff s).2 ⟨rst, idle, noOffer⟩,
          by rw [rspPort_of_run rst, noOffer]; rfl⟩,
        fun added => absurd responses added⟩
    · exact ⟨fun taken => absurd rfl taken,
        fun _ => ⟨r, by rw [rspPort_of_run rst, offer]; rfl, ready, rfl, rspPort_of_run rst⟩⟩

/-! ### The event port -/

theorem offered_eq_none_iff (s : State) : offered s = none ↔ s.seqState = .idle := by
  unfold offered
  cases s.seqState with
  | idle => simp
  | transmitting => simp

theorem ioPort_eq_none_iff (s : State) : ioPort s = none ↔ s.rst = true ∨ s.seqState = .idle := by
  rw [ioPort, ite_eq_left_iff, Option.map_eq_none_iff, offered_eq_none_iff]
  exact Decidable.or_iff_not_imp_left.symm

/-- A port that shows something shows the event on offer (R33). -/
theorem offered_of_ioPort {s : State} {io : IoPort} (shown : ioPort s = some io) :
    ∃ e, offered s = some e ∧ io = e.onPort := by
  unfold ioPort at shown
  split at shown
  · cases shown
  · obtain ⟨e, offer, onPort⟩ := Option.map_eq_some_iff.1 shown
    exact ⟨e, offer, onPort.symm⟩

/-- The signals tell the kind of an event and the argument of a delay (R33). -/
theorem Event.onPort_reads (e : Event) :
    e.onPort.kind ≠ 0b11 ∧
    (e = .set .low ↔ e.onPort.kind = 0b00) ∧ (e = .set .high ↔ e.onPort.kind = 0b01) ∧
    ((∃ n, e = .delay n) ↔ e.onPort.kind = 0b10) ∧
    (∀ n, e = .delay n → e.onPort.arg = n) ∧ ((∀ n, e ≠ .delay n) → e.onPort.arg = 0) := by
  rcases e with (_ | _) | n
  · simp [Event.onPort, Event.kind, Event.arg]
  · simp [Event.onPort, Event.kind, Event.arg]
  · simp [Event.onPort, Event.kind, Event.arg]

/-- Settles O56: the port is the event on offer put in signals. -/
theorem eventPortShowsTheOffer : Obligations.EventPortShowsTheOffer := by
  refine fun s => ⟨(ioPort_eq_none_iff s).symm, fun io shown => ?_⟩
  obtain ⟨e, offer, rfl⟩ := offered_of_ioPort shown
  exact ⟨e, offer, e.onPort_reads⟩

end Machine

end Sys2Proof
end

section
/-! The invariant of a run (R25, R30, R31, R35, R65, R195): a reset meets it, and each of the things
a step can do keeps it. -/

namespace Sys2Proof

namespace Machine

/-! ### The state after reset -/

/-- Settles O49: every field named is the one `State.resetWith` writes, for any parameters. -/
theorem resetLeavesTheDocumentedState : Obligations.ResetLeavesTheDocumentedState :=
  ⟨fun _ => ⟨rfl, rfl, rfl, rfl, rfl, rfl⟩, rfl, rfl, rfl, rfl, rfl, rfl⟩

/-- In IDLE the position and the level in force ask for nothing. -/
theorem good_of_idle {s : State} (idle : s.seqState = .idle) (tables : s.TablesWellFormed)
    (offer : s.rsp ≠ none → s.pkt = []) (begun : decode s.pkt = .more)
    (shadow : s.ShadowIsLastSet) (responses : s.NoInvalidPattern) : s.Good := by
  have notSending : s.seqState ≠ .transmitting := by simp [idle]
  exact ⟨tables, fun sending => absurd sending notSending,
    ⟨fun sending => absurd sending notSending, offer, begun⟩,
    fun sending => absurd sending notSending, shadow, responses⟩

theorem resetWith_good {cfg : Config.Params} (wf : cfg.resetProto.WellFormed) :
    (State.resetWith cfg).Good :=
  good_of_idle rfl ⟨wf, wf⟩ (fun _ => rfl) rfl (.inl rfl) ⟨nofun, List.not_mem_nil⟩

/-- Settles O52: the reset table is a parameter, and the standard one is registry row 1. -/
theorem resetStateIsGood : Obligations.ResetStateIsGood :=
  ⟨fun _ wf => resetWith_good wf, resetWith_good (rom_wellFormed (k := 1) rfl)⟩

theorem applyReset_good {s : State} (good : s.Good) : (applyReset s).Good :=
  good_of_idle rfl ⟨good.tables.2, good.tables.2⟩ (fun _ => rfl) rfl (.inl rfl)
    ⟨nofun, good.responses.2⟩

/-! ### In IDLE -/

theorem handResponse_good {s : State} {r : Resp} (good : s.Good) (idle : s.seqState = .idle)
    (offer : s.rsp = some r) : (handResponse r s).Good := by
  rcases handResponse_cases r s with ⟨-, taken⟩ | ⟨-, waits⟩
  · rw [taken]
    obtain ⟨-, -, begun⟩ := good.oneAtATime
    obtain ⟨valid, validBefore⟩ := good.responses
    refine good_of_idle idle good.tables (fun offers => absurd rfl offers) begun good.shadow
      ⟨nofun, fun invalid => ?_⟩
    rcases List.mem_append.1 invalid with before | now
    · exact validBefore before
    · exact valid (by rw [offer, List.mem_singleton.1 now])
  · rwa [waits]

/-- A packet that is not whole is held (R52). -/
theorem good_of_words_taken {s : State} {pkt cmdIn : List Word} (good : s.Good)
    (idle : s.seqState = .idle) (noOffer : s.rsp = none) (begun : decode pkt = .more) :
    State.Good { s with pkt := pkt, cmdIn := cmdIn } :=
  good_of_idle idle good.tables (fun offers => absurd noOffer offers) begun good.shadow
    good.responses

/-- A command begins with nothing latched and nothing on offer, and it installs a well-formed table,
answers, or starts a send at a position in range (R161). -/
theorem exec_good {i : Instr} {s t : State} (good : s.Good) (idle : s.seqState = .idle)
    (noOffer : s.rsp = none) (whole : s.pkt = []) (h : exec i s = .next t) : t.Good := by
  obtain ⟨-, validBefore⟩ := good.responses
  have begun : decode s.pkt = .more := by rw [whole]; rfl
  rcases exec_cases h with ⟨p, wf, rfl⟩ | ⟨b, -, rfl⟩ | ⟨r, valid, rfl⟩
  · exact good_of_idle idle ⟨wf, good.tables.2⟩ (fun _ => whole) begun good.shadow
      ⟨nofun, validBefore⟩
  · exact ⟨good.tables,
      fun _ => ⟨BitVec.le_def.2 (Nat.zero_le _), Nat.zero_le _, nofun, fun _ => ⟨rfl, rfl, rfl⟩⟩,
      ⟨fun _ => ⟨noOffer, whole⟩, fun _ => whole, begun⟩, fun _ => trivial, good.shadow,
      good.responses⟩
  · exact good_of_idle idle good.tables (fun _ => whole) begun good.shadow
      ⟨fun invalid => valid (Option.some.inj invalid), validBefore⟩

/-! ### In TRANSMITTING -/

/-- The position stays in range where a pass is left: a completed pass is the last or has another
behind it (R30, R164). -/
theorem advance_positionInRange {s : State} (left : s.passesLeft) (inRange : s.PositionInRange) :
    (advance s).PositionInRange := by
  intro sending
  rw [advance_seqState] at sending
  obtain ⟨-, slot, two, -⟩ := inRange sending
  have below := (passesLeft_iff s).1 left
  have notLast : s.rep ≠ s.repeatCount := BitVec.ne_of_lt left
  have repInRange : s.rep ≤ s.repeatCount := BitVec.le_of_lt left
  rcases advance_cases s with ⟨-, next⟩ | ⟨-, next⟩ | ⟨-, next⟩ | ⟨-, -, second, next⟩ |
    ⟨-, -, inside, next⟩ | ⟨-, -, -, next⟩
  · rw [next]
    exact ⟨repInRange, slot, two, fun last => absurd last notLast⟩
  · rw [next]
    exact ⟨repInRange, slot, two, fun last => absurd last notLast⟩
  · rw [next]
    exact ⟨repInRange, slot, two, fun last => absurd last notLast⟩
  · rw [next]
    exact ⟨repInRange, slot, fun _ => second, fun last => absurd last notLast⟩
  · rw [next]
    exact ⟨repInRange, inside, nofun, fun last => absurd last notLast⟩
  · rw [next]
    refine ⟨?_, Nat.zero_le _, nofun, fun _ => ⟨rfl, rfl, rfl⟩⟩
    rw [BitVec.le_def, rep_succ_toNat left]
    exact below

/-- A drive sets the level its delay runs under, and the delay leaves it (R65, R163). -/
theorem eventStep_levelInForce {s : State} (inForce : s.LevelInForce) :
    (eventStep s).LevelInForce := by
  intro sending
  have level := inForce (by simpa [eventStep] using sending)
  have shadow : (eventStep s).pinLevel = (positionEvent s).levelAfter s.pinLevel := by
    simp [eventStep]
  have table : (eventStep s).proto = s.proto := by simp [eventStep]
  rw [shadow, table, positionEvent]
  rcases advance_cases (complete (positionEvent s) s) with ⟨ph, next⟩ | ⟨ph, next⟩ | ⟨ph, next⟩ |
    ⟨-, -, -, next⟩ | ⟨-, -, -, next⟩ | ⟨-, -, -, next⟩
  · rw [complete_ph] at ph
    simp [eventStep, next, ph, phaseEvent]
  · rw [complete_ph] at ph
    simpa [eventStep, next, ph, phaseEvent] using level
  · rw [complete_ph] at ph
    simp [eventStep, next, ph, phaseEvent]
  · simp [eventStep, next]
  · simp [eventStep, next]
  · simp [eventStep, next]

/-- The level after one event more (R31). -/
theorem levelAfterAll_append_singleton (start : Option Level) (es : List Event) (e : Event) :
    levelAfterAll start (es ++ [e]) = e.levelAfter (levelAfterAll start es) := by
  simp [levelAfterAll]

/-- A drive is the last `Set`, and a delay changes neither the shadow nor the last `Set` (R31). -/
theorem complete_shadowIsLastSet (e : Event) {s : State} (shadow : s.ShadowIsLastSet) :
    (complete e s).ShadowIsLastSet := by
  unfold State.ShadowIsLastSet at shadow ⊢
  rw [complete_pinLevel, complete_events, levelAfterAll_append_singleton]
  cases e with
  | set l => exact .inr rfl
  | delay n => exact shadow

theorem eventStep_good {s : State} (good : s.Good) (left : s.passesLeft) : (eventStep s).Good := by
  have position : (eventStep s).PositionInRange :=
    advance_positionInRange (s := complete (positionEvent s) s) left good.position
  have levelInForce := eventStep_levelInForce good.levelInForce
  have shadow := complete_shadowIsLastSet (positionEvent s) good.shadow
  unfold eventStep at position levelInForce ⊢
  rw [advance_eq_with_position] at position levelInForce ⊢
  exact ⟨good.tables, position, good.oneAtATime, levelInForce, shadow, good.responses⟩

/-- The closing drive is the last `Set`, and OK goes on offer with nothing latched (R165). -/
theorem endSend_good {s : State} (good : s.Good) (sending : s.seqState = .transmitting) :
    (endSend s).Good := by
  obtain ⟨whileSending, -, begun⟩ := good.oneAtATime
  obtain ⟨-, whole⟩ := whileSending sending
  obtain ⟨-, validBefore⟩ := good.responses
  exact good_of_idle rfl good.tables (fun _ => whole) begun
    (complete_shadowIsLastSet (closingEvent s) good.shadow) ⟨nofun, validBefore⟩

theorem transmitStep_good {s : State} (good : s.Good) (sending : s.seqState = .transmitting) :
    (transmitStep s).Good := by
  rcases transmitStep_cases s with ⟨-, waits⟩ | ⟨-, left, hands⟩ | ⟨-, -, ends⟩
  · rwa [waits]
  · rw [hands]
    exact eventStep_good good left
  · rw [ends]
    exact endSend_good good sending

/-! ### A step -/

/-- Settles O51: each of the things a step can be keeps the invariant. -/
theorem everyStepKeepsTheGoodState : Obligations.EveryStepKeepsTheGoodState := by
  intro s t good h
  rcases step_cases h with ⟨-, rfl⟩ | ⟨-, sending, rfl⟩ | ⟨-, idle, r, offer, rfl⟩ |
    ⟨-, idle, noOffer, begun, rfl⟩ | ⟨-, idle, noOffer, i, rest, -, runs⟩
  · exact applyReset_good good
  · exact transmitStep_good good sending
  · exact handResponse_good good idle offer
  · exact good_of_words_taken good idle noOffer begun
  · have taken : State.Good { s with pkt := [], cmdIn := rest } :=
      good_of_words_taken good idle noOffer rfl
    exact exec_good taken idle noOffer rfl runs

end Machine

end Sys2Proof
end

section
/-! What a step does with the words at hand (R52, R62), and what it adds to the observation
(R33, R34, R53, R56). -/

namespace Sys2Proof

/-- A header whose payload is not all there waits for the rest (R52, R85). -/
theorem decode_of_payload_short {h : Word} {words : List Word} {n : Nat}
    (len : payloadWords h = .ok n) (short : words.length < n) : decode (h :: words) = .more := by
  simp only [decode, len, if_pos short]

/-- A proper beginning of a well-formed command's packet is not a packet: its header, once there,
asks for more words than have come (R52). -/
theorem decode_of_packet_begun {i : Instr} {sent unsent : List Word} (wf : i.WellFormed)
    (packet : encode i = sent ++ unsent) (missing : unsent ≠ []) : decode sent = .more := by
  cases sent with
  | nil => rfl
  | cons h words =>
    obtain ⟨header, payload, whole, len⟩ := payloadWords_encode wf
    rw [packet, List.cons_append] at whole
    obtain ⟨rfl, rfl⟩ := List.cons.inj whole
    refine decode_of_payload_short len ?_
    have := List.length_pos_of_ne_nil missing
    rw [List.length_append]
    omega

namespace Machine

/-! ### Words at hand -/

/-- In IDLE with no response on offer words that are not a whole packet are taken and held
(R52). -/
theorem step_of_decode_more {s : State} (rst : s.rst = false) (idle : s.seqState = .idle)
    (noOffer : s.rsp = none) (begun : decode (s.pkt ++ s.cmdIn) = .more) :
    step s = .next { s with pkt := s.pkt ++ s.cmdIn, cmdIn := [] } := by
  have fetched : fetch s = .waits { s with pkt := s.pkt ++ s.cmdIn, cmdIn := [] } := by
    simp only [fetch, begun]
  simp only [step_fetch rst idle noOffer, fetched]

/-- Settles O43: the packet is fetched and its command run in the same step. -/
theorem stepRunsTheDecodedCommand : Obligations.StepRunsTheDecodedCommand :=
  fun _ _ _ => step_of_decode_command

/-- Settles O44: the decoder answers `more` to the words at hand, and the step that follows from
it takes them. -/
theorem partialPacketWaits : Obligations.PartialPacketWaits := by
  rintro s rst idle noOffer i _ unsent wf rfl packet missing
  exact step_of_decode_more rst idle noOffer (decode_of_packet_begun wf packet missing)

/-! ### What a step adds -/

/-- A step of a send waits, or hands over the event on offer (R33, R163, R165). -/
theorem transmitStep_events {s : State} (sending : s.seqState = .transmitting) :
    (transmitStep s).events = s.events ∨
      ∃ e, offered s = some e ∧ (transmitStep s).events = s.events ++ [e] := by
  rcases transmitStep_cases s with ⟨-, waits⟩ | ⟨-, left, hands⟩ | ⟨-, done, ends⟩
  · exact .inl (by rw [waits])
  · exact .inr ⟨positionEvent s, by simp [offered, sending, left], by simp [hands, eventStep]⟩
  · exact .inr ⟨closingEvent s, by simp [offered, sending, done], by simp [ends]⟩

/-- A step adds no event, or the one on offer; a reset may complete that one too (R221). -/
theorem step_events {s t : State} (h : step s = .next t) :
    t.events = s.events ∨ ∃ e, offered s = some e ∧ t.events = s.events ++ [e] := by
  rcases step_cases h with ⟨-, rfl⟩ | ⟨-, sending, rfl⟩ | ⟨-, -, r, -, rfl⟩ | ⟨-, -, -, -, rfl⟩ |
    ⟨-, -, -, i, rest, -, runs⟩
  · exact settleOffered_events s
  · exact transmitStep_events sending
  · rcases handResponse_cases r s with ⟨-, taken⟩ | ⟨-, waits⟩
    · exact .inl (by rw [taken])
    · exact .inl (by rw [waits])
  · exact .inl rfl
  · obtain ⟨-, -, -, -, -, -, -, -, -, events, -⟩ := exec_sameSurroundings runs
    exact .inl events

/-- Settles O46: the events by `step_events`, the responses by the handshake. -/
theorem stepAddsAtMostOneEventAndOneResponse :
    Obligations.StepAddsAtMostOneEventAndOneResponse := by
  refine fun s t h => ⟨step_events h, ?_⟩
  rcases step_handshake h with ⟨-, same⟩ | ⟨-, -, -, same⟩ | ⟨r, -, offer, -, rfl⟩
  · exact .inl same
  · exact .inl same
  · exact .inr ⟨r, offer, rfl, rfl⟩

end Machine

end Sys2Proof
end

section
/-! Runs under any inputs (R59, R207, R208): what a sample may change, and the induction later the
samples of a run. -/

namespace Sys2Proof

namespace Machine

/-! ### Runs -/

/-- A run of one sample more, where the first step answers. -/
theorem runSamples_cons_of_next {s t : State} {x : Sample} (xs : List Sample)
    (h : step (s.sample x) = .next t) : runSamples (x :: xs) s = runSamples xs t := by
  simp only [runSamples, h]

/-- A run that answers a next state answers one at its first sample. -/
theorem runSamples_cons_eq_next {s t : State} {x : Sample} {xs : List Sample}
    (h : runSamples (x :: xs) s = .next t) :
    ∃ u, step (s.sample x) = .next u ∧ runSamples xs u = .next t := by
  unfold runSamples at h
  split at h
  · next u first => exact ⟨u, first, h⟩
  · cases h
  · cases h

/-- Runs compose. -/
theorem runSamples_append {s t : State} {xs : List Sample} (ys : List Sample)
    (h : runSamples xs s = .next t) : runSamples (xs ++ ys) s = runSamples ys t := by
  induction xs generalizing s with
  | nil =>
    obtain rfl := Host.Outcome.next.inj h
    rfl
  | cons x xs ih =>
    obtain ⟨u, first, others⟩ := runSamples_cons_eq_next h
    rw [List.cons_append, runSamples_cons_of_next _ first, ih others]

/-- What neither the inputs nor a step can break holds along every run. -/
theorem runSamples_keeps {P : State → Prop} (sampled : ∀ s x, P s → P (s.sample x))
    (stepped : ∀ s t, P s → step s = .next t → P t) {s t : State} {xs : List Sample}
    (start : P s) (h : runSamples xs s = .next t) : P t := by
  induction xs generalizing s with
  | nil => exact Host.Outcome.next.inj h ▸ start
  | cons x xs ih =>
    obtain ⟨u, first, others⟩ := runSamples_cons_eq_next h
    exact ih (stepped _ u (sampled s x start) first) others

/-! ### The invariant -/

/-- The invariant speaks of no input, and of no word the block has not taken. -/
theorem sample_good {s : State} (x : Sample) (good : s.Good) : (s.sample x).Good :=
  ⟨good.tables, good.position, good.oneAtATime, good.levelInForce, good.shadow, good.responses⟩

/-- Settles O53: neither a sample nor a step breaks the invariant. -/
theorem goodUnderAnyInputs : Obligations.GoodUnderAnyInputs :=
  fun _ _ _ good run =>
    runSamples_keeps (fun _ x => sample_good x) everyStepKeepsTheGoodState good run

end Machine

end Sys2Proof
end

section
/-! A send under any inputs (R157, R171, R172, R208, R223, R224). The idea: what remains of a send
is read off its table, latch and position, and of the inputs only `io_ready` moves the position. -/

namespace Sys2Proof

namespace Machine

/-! ### The inputs a send does not look at -/

/-- The same state with another strap, another readiness of the host and another stream (R32,
R35). -/
def State.withHost (pin ready : Bool) (ws : List Word) (s : State) : State :=
  { s with pinPresent := pin, rspReady := ready, cmdIn := ws }

theorem nextSlot_withHost (pin ready : Bool) (ws : List Word) (s : State) :
    nextSlot (s.withHost pin ready ws) = (nextSlot s).withHost pin ready ws := by
  by_cases inside : s.slot < s.buf.len
  · simp [nextSlot, State.withHost, inside]
  · simp [nextSlot, State.withHost, inside]

theorem nextEmission_withHost (pin ready : Bool) (ws : List Word) (s : State) :
    nextEmission (s.withHost pin ready ws) = (nextEmission s).withHost pin ready ws := by
  have slots := nextSlot_withHost pin ready ws s
  cases sub : s.sub with
  | first =>
    by_cases two : s.buf.twoEmissions s.slot = true
    · simp [nextEmission, State.withHost, sub, two]
    · simpa [nextEmission, State.withHost, sub, two] using slots
  | second => simpa [nextEmission, State.withHost, sub] using slots

/-- The next position is found from the position and the latch (R164). -/
theorem advance_withHost (pin ready : Bool) (ws : List Word) (s : State) :
    advance (s.withHost pin ready ws) = (advance s).withHost pin ready ws := by
  cases ph : s.ph with
  | driveHigh => simp [advance, State.withHost, ph]
  | delayHigh => simp [advance, State.withHost, ph]
  | driveLow => simp [advance, State.withHost, ph]
  | delayLow =>
    have emission := nextEmission_withHost pin ready ws { s with ph := .driveHigh }
    simpa [advance, State.withHost, ph] using emission

theorem eventStep_withHost (pin ready : Bool) (ws : List Word) (s : State) :
    eventStep (s.withHost pin ready ws) = (eventStep s).withHost pin ready ws :=
  advance_withHost pin ready ws (complete (positionEvent s) s)

/-- A step of a send does the same under any strap, readiness of the host and stream (R157, R223,
R224). -/
theorem transmitStep_withHost (pin ready : Bool) (ws : List Word) (s : State) :
    transmitStep (s.withHost pin ready ws) = (transmitStep s).withHost pin ready ws := by
  cases completed : s.ioReady with
  | false => simp [transmitStep, State.withHost, completed]
  | true =>
    by_cases left : s.passesLeft
    · have hands := eventStep_withHost pin ready ws s
      simpa [transmitStep, State.withHost, completed, left] using hands
    · have ends : endSend (s.withHost pin ready ws) = (endSend s).withHost pin ready ws := rfl
      simpa [transmitStep, State.withHost, completed, left] using ends

/-- Settles O22: out of reset a step in TRANSMITTING is `transmitStep`, which the host's inputs
pass through. -/
theorem sendIgnoresHostAndStrap : Obligations.SendIgnoresHostAndStrap := by
  intro s t pin ready ws rst sending h
  obtain rfl := Host.Outcome.next.inj ((step_transmitting rst sending).symm.trans h)
  have hosted : step (s.withHost pin ready ws) = .next (transmitStep (s.withHost pin ready ws)) :=
    step_transmitting rst sending
  rw [transmitStep_withHost] at hosted
  exact hosted

/-! ### A send in progress -/

/-- The state `t` is later in the send of `s`: the events `es` have been handed over and the rest
of the send remains, with no response and the registers and the latch as they were (R157, R171). -/
structure State.HandsOver (s : State) (es : List Event) (t : State) : Prop where
  sending : t.seqState = .transmitting
  events : t.events = s.events ++ es
  remains : remaining s = es ++ remaining t
  rsp : t.rsp = s.rsp
  responses : t.responses = s.responses
  proto : t.proto = s.proto
  repeatCount : t.repeatCount = s.repeatCount
  buf : t.buf = s.buf
  cfg : t.cfg = s.cfg

/-- What remains of a send does not depend on an input (R157). -/
theorem remaining_sample (s : State) (x : Sample) : remaining (s.sample x) = remaining s := rfl

theorem handsOver_nil_sample {s : State} (x : Sample) (sending : s.seqState = .transmitting) :
    s.HandsOver [] (s.sample x) :=
  ⟨sending, (List.append_nil _).symm, remaining_sample s x, rfl, rfl, rfl, rfl, rfl, rfl⟩

theorem handsOver_refl {s : State} (sending : s.seqState = .transmitting) : s.HandsOver [] s :=
  ⟨sending, (List.append_nil _).symm, rfl, rfl, rfl, rfl, rfl, rfl, rfl⟩

theorem handsOver_eventStep {s : State} (sending : s.seqState = .transmitting)
    (left : s.passesLeft) : s.HandsOver [positionEvent s] (eventStep s) where
  sending := by simpa [eventStep] using sending
  events := by simp [eventStep]
  remains := remaining_eventStep left
  rsp := by simp [eventStep]
  responses := by simp [eventStep]
  proto := by simp [eventStep]
  repeatCount := by simp [eventStep]
  buf := by simp [eventStep]
  cfg := by simp [eventStep]

theorem State.HandsOver.trans {s t u : State} {es fs : List Event} (first : s.HandsOver es t)
    (second : t.HandsOver fs u) : s.HandsOver (es ++ fs) u where
  sending := second.sending
  events := by rw [second.events, first.events, List.append_assoc]
  remains := by rw [first.remains, second.remains, List.append_assoc]
  rsp := second.rsp.trans first.rsp
  responses := second.responses.trans first.responses
  proto := second.proto.trans first.proto
  repeatCount := second.repeatCount.trans first.repeatCount
  buf := second.buf.trans first.buf
  cfg := second.cfg.trans first.cfg

/-- A send in progress always has an event to come (R163). -/
theorem remaining_ne_nil (s : State) : remaining s ≠ [] := by
  by_cases left : s.passesLeft
  · rw [remaining_eventStep left]
    exact List.cons_ne_nil _ _
  · rw [remaining_closing left]
    exact List.cons_ne_nil _ _

/-- A pass is left exactly when the closing drive is not the only event to come (R163, R165). -/
theorem passesLeft_iff_remaining (s : State) : s.passesLeft ↔ 1 < (remaining s).length := by
  by_cases left : s.passesLeft
  · have := List.length_pos_of_ne_nil (remaining_ne_nil (eventStep s))
    rw [remaining_eventStep left, List.length_cons]
    exact iff_of_true left (by omega)
  · rw [remaining_closing left]
    exact iff_of_false left (by simp)

/-! ### A sample of a send -/

/-- A step of a send under a sample without reset, by whether the collaborator completes the event
on offer and whether that is the closing drive (R163, R165, R208). -/
theorem step_sample {s : State} {x : Sample} (sending : s.seqState = .transmitting)
    (rst : x.rst = false) :
    step (s.sample x) = .next
      (if x.ioReady then if s.passesLeft then eventStep (s.sample x) else endSend (s.sample x)
        else s.sample x) :=
  step_transmitting (s := s.sample x) rst sending

/-- While fewer events are completed than remain, a run hands over one event for each completion
and is still sending (R157, R171, R208). -/
theorem runSamples_handsOver {s : State} {xs : List Sample} (sending : s.seqState = .transmitting)
    (noReset : ∀ x ∈ xs, x.rst = false)
    (short : (xs.filter fun x => x.ioReady).length < (remaining s).length) :
    ∃ es t, es.length = (xs.filter fun x => x.ioReady).length ∧ runSamples xs s = .next t ∧
      s.HandsOver es t := by
  induction xs generalizing s with
  | nil => exact ⟨[], s, rfl, rfl, handsOver_refl sending⟩
  | cons x xs ih =>
    obtain ⟨rst, noResetAfter⟩ := List.forall_mem_cons.1 noReset
    have first := step_sample sending rst
    have sampled := handsOver_nil_sample x sending
    cases ready : x.ioReady with
    | false =>
      simp only [List.filter_cons, ready, Bool.false_eq_true, if_false] at first short ⊢
      obtain ⟨es, t, count, run, later⟩ := ih (s := s.sample x) sending noResetAfter short
      exact ⟨es, t, count, (runSamples_cons_of_next xs first).trans run, sampled.trans later⟩
    | true =>
      simp only [List.filter_cons, ready, if_true, List.length_cons] at first short ⊢
      have left : s.passesLeft := (passesLeft_iff_remaining s).2 (by omega)
      rw [if_pos left] at first
      have handed : s.HandsOver [positionEvent (s.sample x)] (eventStep (s.sample x)) :=
        sampled.trans (handsOver_eventStep sending left)
      rw [handed.remains, List.length_append, List.length_singleton] at short
      obtain ⟨es, t, count, run, later⟩ := ih handed.sending noResetAfter (by omega)
      exact ⟨_ :: es, t, congrArg Nat.succ count, (runSamples_cons_of_next xs first).trans run,
        handed.trans later⟩

/-- A completion with only the closing drive to come ends the send (R165). -/
theorem runSamples_closing {s t : State} {es : List Event} {x : Sample} (later : s.HandsOver es t)
    (last : es.length + 1 = (remaining s).length) (rst : x.rst = false)
    (ready : x.ioReady = true) :
    remaining s = es ++ [closingEvent t] ∧ runSamples [x] t = .next (endSend (t.sample x)) := by
  have remains := later.remains
  have done : ¬ t.passesLeft := by
    rw [remains, List.length_append] at last
    rw [passesLeft_iff_remaining]
    omega
  have ends := step_sample later.sending rst
  rw [if_pos ready, if_neg done] at ends
  exact ⟨by rw [remains, remaining_closing done], runSamples_cons_of_next [] ends⟩

/-- Settles O21: at its start all events of the send remain, the run hands over the first of them,
and a completion of the one that is left ends it. -/
theorem sendIsTheSameUnderAnyInputs : Obligations.SendIsTheSameUnderAnyInputs := by
  intro s xs start noReset all n
  have whole : remaining s = all := remaining_at_send_start start
  have runs : n < all.length →
      ∃ es t, es.length = n ∧ runSamples xs s = .next t ∧ s.HandsOver es t := by
    rw [← whole]
    exact runSamples_handsOver start.1 noReset
  refine ⟨fun short => ?_, fun last x rst ready => ?_⟩
  · obtain ⟨es, t, count, run, later⟩ := runs short
    have taken : all.take n = es := by rw [← whole, later.remains, ← count, List.take_left]
    exact ⟨t, run, later.sending, by rw [later.events, taken], later.rsp, later.responses,
      later.proto, later.repeatCount, later.buf⟩
  · obtain ⟨es, t, count, run, later⟩ := runs (by omega)
    obtain ⟨closes, ends⟩ := runSamples_closing later (by rw [count, last, whole]) rst ready
    refine ⟨endSend (t.sample x), (runSamples_append [x] run).trans ends, rfl, ?_, rfl,
      later.responses, ?_⟩
    · rw [← whole, closes, ← List.append_assoc, ← later.events]
      rfl
    · rw [← later.cfg, ← later.proto]
      rfl

end Machine

end Sys2Proof
end

section
/-! A command has one packet (R89): what the decoder accepts is, word for word, what the encoder
writes. The idea: a header's accepted fields, the reserved ones being 0, are all its bits, and a
payload's accepted padding leaves its symbols. -/

namespace Sys2Proof

/-! ### Payloads -/

theorem unpackRaw_length (n : Nat) (ws : List Word) :
    (unpackRaw n ws).length = min n (32 * ws.length) := by
  induction ws generalizing n with
  | nil => simp [unpackRaw]
  | cons w ws ih =>
    simp only [unpackRaw, List.length_append, bitsOfNat_length, ih, List.length_cons]
    omega

theorem unpackTri_length {n : Nat} {ws : List Word} {xs : List Sym3}
    (h : unpackTri n ws = some xs) : xs.length = min n (16 * ws.length) := by
  induction ws generalizing n xs with
  | nil =>
    obtain rfl := Option.some.inj h
    simp
  | cons w ws ih =>
    simp only [unpackTri] at h
    split at h
    · next front back first others =>
      obtain rfl := Option.some.inj h
      simp only [List.length_append, symsOfNat_length first, ih others, List.length_cons]
      omega
    · cases h

/-- What is cut after a full word's worth of symbols is the first word's symbols and the others':
a word that is not full has no others behind it. -/
theorem take_drop_append_of_word {α : Type} {per n : Nat} {front back : List α}
    (first : front.length = min n per) (others : back.length ≤ n - per) :
    (front ++ back).take per = front ∧ (front ++ back).drop per = back := by
  by_cases full : per ≤ n
  · have exact : front.length = per := by omega
    exact ⟨List.take_left' exact, List.drop_left' exact⟩
  · obtain rfl : back = [] := List.length_eq_zero_iff.1 (by omega)
    rw [List.append_nil]
    exact ⟨List.take_of_length_le (by omega), List.drop_eq_nil_of_le (by omega)⟩

/-- A number that has nothing at `m` and above, for `m` a power of the base, is its low digits. -/
theorem mod_eq_self_of_div_eq_zero {v m : Nat} (positive : 0 < m) (above : v / m = 0) :
    v % m = v :=
  Nat.mod_eq_of_lt ((Nat.div_eq_zero_iff_lt positive).1 above)

theorem packRaw_unpackRaw {n : Nat} {ws : List Word} (padding : padOkRaw n ws = true) :
    packRaw ws.length (unpackRaw n ws) = ws := by
  induction ws generalizing n with
  | nil => rfl
  | cons w ws ih =>
    simp only [padOkRaw, Bool.and_eq_true, beq_iff_eq] at padding
    obtain ⟨above, later⟩ := padding
    obtain ⟨first, others⟩ := take_drop_append_of_word (per := 32) (n := n)
      (bitsOfNat_length (min n 32) w.toNat) (back := unpackRaw (n - 32) ws)
      (by rw [unpackRaw_length]; omega)
    rw [List.length_cons, packRaw, unpackRaw, first, others, ih later, natOfBits_bitsOfNat,
      mod_eq_self_of_div_eq_zero (Nat.two_pow_pos _) above, BitVec.ofNat_toNat,
      BitVec.setWidth_eq]

theorem packTri_unpackTri {n : Nat} {ws : List Word} {xs : List Sym3}
    (padding : padOkTri n ws = true) (h : unpackTri n ws = some xs) :
    packTri ws.length xs = ws := by
  induction ws generalizing n xs with
  | nil => rfl
  | cons w ws ih =>
    simp only [padOkTri, Bool.and_eq_true, beq_iff_eq] at padding
    obtain ⟨above, later⟩ := padding
    simp only [unpackTri] at h
    split at h
    · next front back symbols unpacked =>
      obtain rfl := Option.some.inj h
      obtain ⟨first, others⟩ := take_drop_append_of_word (per := 16) (symsOfNat_length symbols)
        (back := back) (by rw [unpackTri_length unpacked]; omega)
      rw [List.length_cons, packTri, first, others, ih later unpacked, natOfSyms_symsOfNat symbols,
        mod_eq_self_of_div_eq_zero (Nat.pow_pos (by omega)) above, BitVec.ofNat_toNat,
        BitVec.setWidth_eq]
    · cases h

/-! ### Headers -/

theorem field_lt (w : Word) (lo len : Nat) : field w lo len < 2 ^ len :=
  Nat.mod_lt _ (Nat.two_pow_pos len)

theorem field_one_eq_zero_or_one (w : Word) (lo : Nat) : field w lo 1 = 0 ∨ field w lo 1 = 1 := by
  have := field_lt w lo 1
  omega

/-- A header is its opcode and the 28 bits under it (R71). -/
theorem header_of_fields {h : Word} {op f : Nat} (opcode : opc h = op) (fields : field h 0 28 = f) :
    header op f = h := by
  subst opcode fields
  refine BitVec.eq_of_toNat_eq ?_
  have value := header_toNat (op := opc h) (field_lt h 28 4) (field_lt h 0 28)
  have := h.isLt
  rw [value]
  simp only [opc, field]
  omega

/-- A header that no rule reserves, with its number `n` of payload words: one constructor per
opcode, with what R83 asks of the header's other bits. -/
inductive AcceptedHeader (h : Word) (n : Nat) : Prop
  | setprotoRom (opcode : opc h = 1) (clear : field h 4 24 = 0)
    (row : 1 ≤ field h 0 4 ∧ field h 0 4 ≤ 7) (words : n = 0)
  | setprotoTbl (opcode : opc h = 2) (clear : field h 1 27 = 0) (words : n = 7)
  | sendraw (opcode : opc h = 3) (clear : field h 16 12 = 0)
    (words : n = seqWords 32 (field h 0 16))
  | sendtri (opcode : opc h = 4) (clear : field h 16 12 = 0)
    (words : n = seqWords 16 (field h 0 16))
  | switchA (opcode : opc h = 5) (clear : field h 24 3 = 0) (words : n = 0)
  | switchB (opcode : opc h = 6) (clear : field h 24 3 = 0) (clearLow : field h 0 8 = 0)
    (words : n = 0)
  | addrpat (opcode : opc h = 7) (clear : field h 24 4 = 0)
    (padding : field h 0 16 / 2 ^ min (field h 16 8) 16 = 0) (words : n = 0)

theorem acceptedHeader_of_payloadWords {h : Word} {n : Nat} (accepted : payloadWords h = .ok n) :
    AcceptedHeader h n := by
  unfold payloadWords at accepted
  split at accepted
  case h_1 opcode =>
    split_ifs at accepted with bits row
    exact .setprotoRom opcode (not_not.1 bits) (by omega) (Except.ok.inj accepted).symm
  case h_2 opcode =>
    split_ifs at accepted with bits
    exact .setprotoTbl opcode (not_not.1 bits) (Except.ok.inj accepted).symm
  case h_3 opcode =>
    split_ifs at accepted with bits
    exact .sendraw opcode (not_not.1 bits) (Except.ok.inj accepted).symm
  case h_4 opcode =>
    split_ifs at accepted with bits
    exact .sendtri opcode (not_not.1 bits) (Except.ok.inj accepted).symm
  case h_5 opcode =>
    split_ifs at accepted with bits
    exact .switchA opcode (not_not.1 bits) (Except.ok.inj accepted).symm
  case h_6 opcode =>
    split_ifs at accepted with bits
    exact .switchB opcode (by omega) (by omega) (Except.ok.inj accepted).symm
  case h_7 opcode =>
    split_ifs at accepted with bits padding
    exact .addrpat opcode (not_not.1 bits) (not_not.1 padding) (Except.ok.inj accepted).symm
  case h_8 => cases accepted

/-! ### Whole packets -/

/-- `h :: payload` is the packet of `i`, and `i` has a meaning, but for a table that SETPROTO.TBL
has yet to check (R106). -/
def Instr.HasPacket (i : Instr) (h : Word) (payload : List Word) : Prop :=
  encode i = h :: payload ∧ (i.WellFormed ∨ ∃ p, i = .setprotoTbl p)

theorem hasPacket_setprotoRom {h : Word} (opcode : opc h = 1) (clear : field h 4 24 = 0)
    (row : 1 ≤ field h 0 4 ∧ field h 0 4 ≤ 7) :
    (Instr.setprotoRom (field h 0 4)).HasPacket h [] := by
  have fields : field h 0 28 = field h 0 4 := by
    simp only [field] at clear ⊢
    omega
  exact ⟨congrArg (· :: []) (header_of_fields opcode fields), .inl row⟩

theorem hasPacket_setprotoTbl {h : Word} {payload : List Word} (opcode : opc h = 2)
    (clear : field h 1 27 = 0) (words : payload.length = 7) :
    (Instr.setprotoTbl (tableOf h payload)).HasPacket h payload := by
  have fields : field h 0 28 = (field h 0 1 == 1).toNat := by
    have low : field h 0 28 = field h 0 1 := by
      simp only [field] at clear ⊢
      omega
    rcases field_one_eq_zero_or_one h 0 with clear | set
    · rw [low, clear]
      rfl
    · rw [low, set]
      rfl
  match payload, words with
  | [a, b, c, d, e, f, g], _ =>
    exact ⟨congrArg (· :: [a, b, c, d, e, f, g]) (header_of_fields opcode fields), .inr ⟨_, rfl⟩⟩

/-- The header of a sequence is its opcode and its length (R73). -/
theorem header_of_length {h : Word} {op n : Nat} (opcode : opc h = op) (clear : field h 16 12 = 0)
    (len : n = field h 0 16) : header op n = h := by
  refine header_of_fields opcode ?_
  simp only [field] at clear len ⊢
  omega

theorem hasPacket_sendraw {h : Word} {payload : List Word} (opcode : opc h = 3)
    (clear : field h 16 12 = 0) (words : payload.length = seqWords 32 (field h 0 16))
    (padding : padOkRaw (field h 0 16) payload = true) :
    (Instr.sendraw (unpackRaw (field h 0 16) payload)).HasPacket h payload := by
  have room := le_mul_seqWords (per := 32) (field h 0 16) (by omega)
  have len : (unpackRaw (field h 0 16) payload).length = field h 0 16 := by
    rw [unpackRaw_length, words, Nat.min_eq_left room]
  refine ⟨?_, .inl (len.trans_le (Nat.le_of_lt_succ (field_lt h 0 16)))⟩
  rw [encode, header_of_length opcode clear len, len, ← words, packRaw_unpackRaw padding]

theorem hasPacket_sendtri {h : Word} {payload : List Word} {xs : List Sym3} (opcode : opc h = 4)
    (clear : field h 16 12 = 0) (words : payload.length = seqWords 16 (field h 0 16))
    (padding : padOkTri (field h 0 16) payload = true)
    (symbols : unpackTri (field h 0 16) payload = some xs) :
    (Instr.sendtri xs).HasPacket h payload := by
  have room := le_mul_seqWords (per := 16) (field h 0 16) (by omega)
  have len : xs.length = field h 0 16 := by
    rw [unpackTri_length symbols, words, Nat.min_eq_left room]
  refine ⟨?_, .inl (len.trans_le (Nat.le_of_lt_succ (field_lt h 0 16)))⟩
  rw [encode, header_of_length opcode clear len, len, ← words, packTri_unpackTri padding symbols]

/-- Format A (R77). -/
theorem hasPacket_switchA {h : Word} (opcode : opc h = 5) (clear : field h 24 3 = 0) :
    if field h 27 1 = 1 then (Instr.swaOn (field h 0 16) (field h 16 8)).HasPacket h []
    else (Instr.swaOff (field h 0 16) (field h 16 8)).HasPacket h [] := by
  have address := field_lt h 0 16
  have channel := field_lt h 16 8
  have operands : field h 0 16 < 2 ^ 16 ∧
      0 ≤ (field h 16 8 : Int) ∧ (field h 16 8 : Int) < 2 ^ 8 := by
    omega
  have fields : field h 0 28 =
      field h 27 1 * 2 ^ 27 + field h 16 8 * 2 ^ 16 + field h 0 16 := by
    simp only [field] at clear ⊢
    omega
  split
  · next on =>
    rw [on, Nat.one_mul] at fields
    exact ⟨congrArg (· :: []) (header_of_fields opcode fields), .inl operands⟩
  · next off =>
    rw [(field_one_eq_zero_or_one h 27).resolve_right off, Nat.zero_mul, Nat.zero_add] at fields
    exact ⟨congrArg (· :: []) (header_of_fields opcode fields), .inl operands⟩

/-- Format B (R78). -/
theorem hasPacket_switchB {h : Word} (opcode : opc h = 6) (clear : field h 24 3 = 0)
    (clearLow : field h 0 8 = 0) :
    if field h 27 1 = 1 then (Instr.swbOn (field h 16 8) (field h 8 8)).HasPacket h []
    else (Instr.swbOff (field h 16 8) (field h 8 8)).HasPacket h [] := by
  have address := field_lt h 16 8
  have channel := field_lt h 8 8
  have operands : (0 ≤ (field h 16 8 : Int) ∧ (field h 16 8 : Int) < 2 ^ 8) ∧
      0 ≤ (field h 8 8 : Int) ∧ (field h 8 8 : Int) < 2 ^ 8 := by
    omega
  have fields : field h 0 28 =
      field h 27 1 * 2 ^ 27 + field h 16 8 * 2 ^ 16 + field h 8 8 * 2 ^ 8 := by
    simp only [field] at clear clearLow ⊢
    omega
  split
  · next on =>
    rw [on, Nat.one_mul] at fields
    exact ⟨congrArg (· :: []) (header_of_fields opcode fields), .inl operands⟩
  · next off =>
    rw [(field_one_eq_zero_or_one h 27).resolve_right off, Nat.zero_mul, Nat.zero_add] at fields
    exact ⟨congrArg (· :: []) (header_of_fields opcode fields), .inl operands⟩

theorem hasPacket_addrpat {h : Word} (opcode : opc h = 7) (clear : field h 24 4 = 0)
    (padding : field h 0 16 / 2 ^ min (field h 16 8) 16 = 0) :
    (Instr.addrpat (field h 16 8)
      (bitsOfNat (min (field h 16 8) 16) (field h 0 16))).HasPacket h [] := by
  have pattern : natOfBits (bitsOfNat (min (field h 16 8) 16) (field h 0 16)) = field h 0 16 := by
    rw [natOfBits_bitsOfNat, mod_eq_self_of_div_eq_zero (Nat.two_pow_pos _) padding]
  have fields : field h 0 28 = field h 16 8 * 2 ^ 16 + field h 0 16 := by
    simp only [field] at clear ⊢
    omega
  refine ⟨?_, .inl ⟨field_lt h 16 8, bitsOfNat_length _ _⟩⟩
  rw [encode, pattern, header_of_fields opcode fields]

/-- What an accepted header and its payload stand for has them as its packet (R89). -/
theorem hasPacket_of_decodePacket {h : Word} {payload : List Word} {i : Instr}
    (accepted : payloadWords h = .ok payload.length) (packet : decodePacket h payload = .ok i) :
    i.HasPacket h payload := by
  have nil (words : payload.length = 0) : payload = [] := List.length_eq_zero_iff.1 words
  cases acceptedHeader_of_payloadWords accepted with
  | setprotoRom opcode clear row words =>
    obtain rfl := nil words
    simp only [decodePacket, opcode] at packet
    exact Except.ok.inj packet ▸ hasPacket_setprotoRom opcode clear row
  | setprotoTbl opcode clear words =>
    simp only [decodePacket, opcode] at packet
    exact Except.ok.inj packet ▸ hasPacket_setprotoTbl opcode clear words
  | sendraw opcode clear words =>
    simp only [decodePacket, opcode] at packet
    split at packet
    · next padding =>
      exact Except.ok.inj packet ▸ hasPacket_sendraw opcode clear words padding
    · cases packet
  | sendtri opcode clear words =>
    simp only [decodePacket, opcode] at packet
    split at packet
    · next padding =>
      split at packet
      · next xs symbols =>
        exact Except.ok.inj packet ▸ hasPacket_sendtri opcode clear words padding symbols
      · cases packet
    · cases packet
  | switchA opcode clear words =>
    obtain rfl := nil words
    have status := hasPacket_switchA opcode clear
    simp only [decodePacket, opcode] at packet
    split at packet
    · next on =>
      rw [if_pos on] at status
      exact Except.ok.inj packet ▸ status
    · next off =>
      rw [if_neg off] at status
      exact Except.ok.inj packet ▸ status
  | switchB opcode clear clearLow words =>
    obtain rfl := nil words
    have status := hasPacket_switchB opcode clear clearLow
    simp only [decodePacket, opcode] at packet
    split at packet
    · next on =>
      rw [if_pos on] at status
      exact Except.ok.inj packet ▸ status
    · next off =>
      rw [if_neg off] at status
      exact Except.ok.inj packet ▸ status
  | addrpat opcode clear padding words =>
    obtain rfl := nil words
    simp only [decodePacket, opcode] at packet
    exact Except.ok.inj packet ▸ hasPacket_addrpat opcode clear padding

/-- A stream that decodes to a command is a header, the payload it announces and the rest
(R52, R85). -/
theorem exists_packet_of_decode {ws rest : List Word} {i : Instr}
    (decoded : decode ws = .command i rest) :
    ∃ h payload, ws = h :: (payload ++ rest) ∧ payloadWords h = .ok payload.length ∧
      decodePacket h payload = .ok i := by
  cases ws with
  | nil => cases decoded
  | cons h words =>
    simp only [decode] at decoded
    split at decoded
    · cases decoded
    · next n accepted =>
      split_ifs at decoded with short
      split at decoded
      · cases decoded
      · next command packet =>
        obtain ⟨rfl, rfl⟩ := Decoded.command.inj decoded
        refine ⟨h, words.take n, by rw [List.take_append_drop], ?_, packet⟩
        rw [accepted, List.length_take, Nat.min_eq_left (Nat.le_of_not_lt short)]

/-- Settles O36. -/
theorem decodeOfEncodeIsTheCommand : Obligations.DecodeOfEncodeIsTheCommand :=
  fun _ rest wf => decode_encode_append wf rest

/-- Settles O37: the stream is a packet and the rest, and the packet is the command's. -/
theorem encodeOfDecodeIsThePacket : Obligations.EncodeOfDecodeIsThePacket := by
  intro ws rest i decoded
  obtain ⟨h, payload, rfl, accepted, packet⟩ := exists_packet_of_decode decoded
  obtain ⟨encoded, meaning⟩ := hasPacket_of_decodePacket accepted packet
  exact ⟨by rw [encoded, List.cons_append], meaning⟩

end Sys2Proof
end

section
/-! Where symbols stand in a payload (R74, R75). The idea: a command is decoded exactly from its own
packet (R89), and a payload is determined by its bits, so it is enough to say where the encoder puts
each symbol and that it writes 0 above the last. -/

namespace Sys2Proof

/-! ### Places in a payload -/

/-- Bit `i` of a payload, 32 to a word (R74). -/
def payloadBit (ws : List Word) (i : Nat) : Bool := (ws.getD (i / 32) 0).getLsbD (i % 32)

/-- Bit pair `i` of a payload, 16 to a word (R75). -/
def payloadPair (ws : List Word) (i : Nat) : Nat := field (ws.getD (i / 16) 0) (2 * (i % 16)) 2

theorem payloadBit_cons_of_lt (w : Word) (ws : List Word) {i : Nat} (first : i < 32) :
    payloadBit (w :: ws) i = w.getLsbD i := by
  simp [payloadBit, Nat.div_eq_of_lt first, Nat.mod_eq_of_lt first]

theorem payloadBit_cons_add (w : Word) (ws : List Word) (i : Nat) :
    payloadBit (w :: ws) (i + 32) = payloadBit ws i := by
  simp [payloadBit]

theorem payloadPair_cons_of_lt (w : Word) (ws : List Word) {i : Nat} (first : i < 16) :
    payloadPair (w :: ws) i = field w (2 * i) 2 := by
  simp [payloadPair, Nat.div_eq_of_lt first, Nat.mod_eq_of_lt first]

theorem payloadPair_cons_add (w : Word) (ws : List Word) (i : Nat) :
    payloadPair (w :: ws) (i + 16) = payloadPair ws i := by
  simp [payloadPair]

/-- Bit `k` of a field is bit `lo + k` of the word (R10, R88). -/
theorem field_testBit (w : Word) (lo len k : Nat) :
    (field w lo len).testBit k = (decide (k < len) && w.getLsbD (lo + k)) := by
  rw [field, Nat.testBit_mod_two_pow, Nat.testBit_div_two_pow, Nat.add_comm]
  rfl

/-- Pair `i` of a payload is its bits `2*i` and `2*i + 1`. -/
theorem payloadPair_testBit (ws : List Word) (i k : Nat) :
    (payloadPair ws i).testBit k = (decide (k < 2) && payloadBit ws (2 * i + k)) := by
  rw [payloadPair, field_testBit, payloadBit]
  by_cases inside : k < 2
  · rw [show (2 * i + k) / 32 = i / 16 by omega, show (2 * i + k) % 32 = 2 * (i % 16) + k by omega]
  · simp [inside]

theorem eq_iff_payloadBit {vs ws : List Word} (len : vs.length = ws.length) :
    vs = ws ↔ ∀ i < 32 * ws.length, payloadBit ws i = payloadBit vs i := by
  refine ⟨fun same _ _ => by rw [same], fun bits => ?_⟩
  refine List.ext_getElem len fun j insideL insideR => BitVec.eq_of_getLsbD_eq fun k inside => ?_
  have place := bits (32 * j + k) (by omega)
  rw [payloadBit, payloadBit, show (32 * j + k) / 32 = j by omega,
    show (32 * j + k) % 32 = k by omega] at place
  simpa [insideL, insideR] using place.symm

theorem eq_iff_payloadPair {vs ws : List Word} (len : vs.length = ws.length) :
    vs = ws ↔ ∀ i < 16 * ws.length, payloadPair ws i = payloadPair vs i := by
  refine ⟨fun same _ _ => by rw [same], fun pairs => ?_⟩
  refine (eq_iff_payloadBit len).2 fun i inside => ?_
  have place := congrArg (Nat.testBit · (i % 2)) (pairs (i / 2) (by omega))
  have low : i % 2 < 2 := Nat.mod_lt _ (by omega)
  simpa only [payloadPair_testBit, low, decide_true, Bool.true_and, Nat.div_add_mod] using place

/-! ### Where the encoder puts a symbol -/

theorem payloadBit_packRaw {k i : Nat} (bits : List Bool) (inside : i < 32 * k) :
    payloadBit (packRaw k bits) i = bits[i]?.getD false := by
  induction k generalizing bits i with
  | zero => omega
  | succ k ih =>
    rw [packRaw]
    by_cases first : i < 32
    · rw [payloadBit_cons_of_lt _ _ first, BitVec.getLsbD_ofNat, natOfBits_testBit,
        List.getElem?_take_of_lt first, decide_eq_true first, Bool.true_and]
    · obtain ⟨j, rfl⟩ := Nat.exists_eq_add_of_le' (Nat.le_of_not_lt first)
      rw [payloadBit_cons_add, ih _ (by omega), List.getElem?_drop, Nat.add_comm]

/-- The code of symbol `j` stands in pair `j` of the codeword's number, and 0 past its end. -/
theorem natOfSyms_pair (syms : List Sym3) (j : Nat) :
    natOfSyms syms / 4 ^ j % 4 = (syms[j]?.map codeOfSym).getD 0 := by
  induction syms generalizing j with
  | nil => simp [natOfSyms]
  | cons x xs ih =>
    have := codeOfSym_lt x
    cases j with
    | zero =>
      simp only [natOfSyms, pow_zero, Nat.div_one, List.getElem?_cons_zero, Option.map_some,
        Option.getD_some]
      omega
    | succ j =>
      have rest : (codeOfSym x + 4 * natOfSyms xs) / 4 = natOfSyms xs := by omega
      rw [natOfSyms, Nat.pow_succ', ← Nat.div_div_eq_div_mul, rest, ih, List.getElem?_cons_succ]

theorem payloadPair_packTri {k i : Nat} (syms : List Sym3) (inside : i < 16 * k) :
    payloadPair (packTri k syms) i = (syms[i]?.map codeOfSym).getD 0 := by
  induction k generalizing syms i with
  | zero => omega
  | succ k ih =>
    rw [packTri]
    by_cases first : i < 16
    · rw [payloadPair_cons_of_lt _ _ first, field, ofNat_natOfSyms_toNat (by simp), Nat.pow_mul]
      rw [show 2 ^ 2 = 4 from rfl, natOfSyms_pair, List.getElem?_take_of_lt first]
    · obtain ⟨j, rfl⟩ := Nat.exists_eq_add_of_le' (Nat.le_of_not_lt first)
      rw [payloadPair_cons_add, ih _ (by omega), List.getElem?_drop, Nat.add_comm]

/-! ### What a payload decodes to -/

/-- R89 as an equivalence: but for a table, a command is decoded from its own packet and no
other. -/
theorem decode_append_eq_command_iff {i : Instr} (notTable : ∀ p, i ≠ .setprotoTbl p)
    (packet rest : List Word) :
    decode (packet ++ rest) = .command i rest ↔ i.WellFormed ∧ encode i = packet := by
  refine ⟨fun decoded => ?_, fun ⟨wf, encoded⟩ => encoded ▸ decode_encode_append wf rest⟩
  obtain ⟨stream, wf | ⟨p, table⟩⟩ := encodeOfDecodeIsThePacket _ _ _ decoded
  · exact ⟨wf, List.append_cancel_right stream⟩
  · exact absurd table (notTable p)

/-- A header with no reserved bit set and its payload are the packet of `n` symbols exactly when its
length field is `n` and the payload is theirs (R73). -/
theorem seq_packet_iff {h : Word} {ws : List Word} {op per n : Nat} {pack : Nat → List Word}
    (opcode : opc h = op) (clear : field h 16 12 = 0)
    (words : ws.length = seqWords per (field h 0 16)) :
    n ≤ Config.maxLen ∧ header op n :: pack (seqWords per n) = h :: ws ↔
      n = field h 0 16 ∧ pack ws.length = ws := by
  rw [List.cons.injEq]
  constructor
  · rintro ⟨short, head, payload⟩
    have short : n < 2 ^ 16 := Nat.lt_succ_of_le short
    have len : n = field h 0 16 := by
      rw [← head, field_header (opcode ▸ field_lt h 28 4) (by omega)]
      omega
    exact ⟨len, by rwa [words, ← len]⟩
  · rintro ⟨len, payload⟩
    exact ⟨len.trans_le (Nat.le_of_lt_succ (field_lt h 0 16)), header_of_length opcode clear len,
      by rwa [len, ← words]⟩

theorem decode_eq_sendraw_iff {h : Word} {ws : List Word} (rest : List Word) (bits : List Bool)
    (opcode : opc h = 3) (clear : field h 16 12 = 0)
    (words : ws.length = seqWords 32 (field h 0 16)) :
    decode (h :: (ws ++ rest)) = .command (.sendraw bits) rest ↔
      bits.length = field h 0 16 ∧
        ∀ i < 32 * ws.length, payloadBit ws i = bits[i]?.getD false := by
  refine (decode_append_eq_command_iff (i := .sendraw bits) nofun (h :: ws) rest).trans <|
    (seq_packet_iff (pack := (packRaw · bits)) opcode clear words).trans <|
    and_congr_right fun _ => (eq_iff_payloadBit (packRaw_length _ bits)).trans ?_
  exact forall₂_congr fun i inside => by rw [payloadBit_packRaw bits inside]

theorem decode_eq_sendtri_iff {h : Word} {ws : List Word} (rest : List Word) (syms : List Sym3)
    (opcode : opc h = 4) (clear : field h 16 12 = 0)
    (words : ws.length = seqWords 16 (field h 0 16)) :
    decode (h :: (ws ++ rest)) = .command (.sendtri syms) rest ↔
      syms.length = field h 0 16 ∧
        ∀ i < 16 * ws.length, payloadPair ws i = (syms[i]?.map codeOfSym).getD 0 := by
  refine (decode_append_eq_command_iff (i := .sendtri syms) nofun (h :: ws) rest).trans <|
    (seq_packet_iff (pack := (packTri · syms)) opcode clear words).trans <|
    and_congr_right fun _ => (eq_iff_payloadPair (packTri_length _ syms)).trans ?_
  exact forall₂_congr fun i inside => by rw [payloadPair_packTri syms inside]

/-- Places that hold a list's codes and then only `zero`, read as two halves: the list's own places,
and those above its last. -/
theorem forall_code_iff {α β : Type} {xs : List α} {code : α → β} {zero : β} {place : Nat → β}
    {room : Nat} (fits : xs.length ≤ room) :
    (∀ i < room, place i = (xs[i]?.map code).getD zero) ↔
      (∀ i < xs.length, ∃ x, xs[i]? = some x ∧ place i = code x) ∧
      ∀ i, xs.length ≤ i → i < room → place i = zero := by
  constructor
  · intro places
    refine ⟨fun i inside => ⟨xs[i], List.getElem?_eq_getElem inside, ?_⟩, fun i above inside => ?_⟩
    · rw [places i (by omega), List.getElem?_eq_getElem inside]
      rfl
    · rw [places i inside, List.getElem?_eq_none above]
      rfl
  · rintro ⟨own, above⟩ i inside
    by_cases low : i < xs.length
    · obtain ⟨x, symbol, holds⟩ := own i low
      rw [holds, symbol]
      rfl
    · rw [above i (Nat.le_of_not_lt low) inside, List.getElem?_eq_none (Nat.le_of_not_lt low)]
      rfl

/-- Settles O38: the payload is the one the encoder writes, place by place. -/
theorem sendrawPayloadBits : Obligations.SendrawPayloadBits := by
  intro h ws rest bits opcode clear words
  rw [decode_eq_sendraw_iff rest bits opcode clear words]
  refine and_congr_right fun len => ?_
  have fits : bits.length ≤ 32 * ws.length := by
    rw [len, words]
    exact le_mul_seqWords (per := 32) _ (by omega)
  have halves := forall_code_iff (code := id) (zero := false) (place := payloadBit ws) fits
  simp only [Option.map_id_fun, id_eq, exists_eq_right', len] at halves
  exact halves

/-- Settles O39: the payload is the one the encoder writes, pair by pair. -/
theorem sendtriPayloadSymbols : Obligations.SendtriPayloadSymbols := by
  intro h ws rest syms opcode clear words
  rw [decode_eq_sendtri_iff rest syms opcode clear words]
  refine and_congr_right fun len => ?_
  have fits : syms.length ≤ 16 * ws.length := by
    rw [len, words]
    exact le_mul_seqWords (per := 16) _ (by omega)
  rw [← len]
  exact forall_code_iff (place := payloadPair ws) fits

end Sys2Proof
end

section
/-! Reserved encodings and refusals (R83, R84, R210): each reserved encoding decodes as reserved,
the step refuses what decodes so, and of the commands a packet carries only an ill-formed table is
refused. -/

namespace Sys2Proof

/-! ### Reserved headers -/

theorem payloadWords_of_reservedOpcode {h : Word} (opcode : opc h = 0 ∨ 8 ≤ opc h) :
    payloadWords h = .error .reservedOpcode := by
  unfold payloadWords
  split
  case h_8 => rfl
  all_goals omega

theorem payloadWords_of_reservedBits {h : Word}
    (bits : (opc h = 1 ∧ field h 4 24 ≠ 0) ∨ (opc h = 2 ∧ field h 1 27 ≠ 0) ∨
      ((opc h = 3 ∨ opc h = 4) ∧ field h 16 12 ≠ 0) ∨ (opc h = 5 ∧ field h 24 3 ≠ 0) ∨
      (opc h = 6 ∧ (field h 24 3 ≠ 0 ∨ field h 0 8 ≠ 0)) ∨ (opc h = 7 ∧ field h 24 4 ≠ 0)) :
    payloadWords h = .error .reservedBits := by
  rcases bits with ⟨opcode, set⟩ | ⟨opcode, set⟩ | ⟨opcode | opcode, set⟩ | ⟨opcode, set⟩ |
    ⟨opcode, set⟩ | ⟨opcode, set⟩
  all_goals simp only [payloadWords, opcode, if_pos set]

theorem payloadWords_of_reservedIndex {h : Word} (opcode : opc h = 1) (clear : field h 4 24 = 0)
    (index : field h 0 4 = 0 ∨ 8 ≤ field h 0 4) : payloadWords h = .error .reservedIndex := by
  simp only [payloadWords, opcode, if_neg (not_not.2 clear), if_pos index]

/-- A character past the pattern's last (R79). -/
theorem payloadWords_of_pattern_padding {h : Word} {i : Nat} (opcode : opc h = 7)
    (clear : field h 24 4 = 0) (inside : i < 16) (above : field h 16 8 ≤ i)
    (set : h.getLsbD i = true) : payloadWords h = .error .nonzeroPadding := by
  have padding : field h 0 16 / 2 ^ min (field h 16 8) 16 ≠ 0 := by
    intro nothing
    have below : field h 0 16 < 2 ^ i :=
      ((Nat.div_eq_zero_iff_lt (Nat.two_pow_pos _)).1 nothing).trans_le
        (Nat.pow_le_pow_right (by omega) (by omega))
    have bit := field_testBit h 0 16 i
    rw [Nat.testBit_lt_two_pow below, Nat.zero_add, set, decide_eq_true inside] at bit
    cases bit
  simp only [payloadWords, opcode, if_neg (not_not.2 clear), if_pos padding]

theorem decode_of_payloadWords_error {h : Word} {e : DecodeError} (words : List Word)
    (reserved : payloadWords h = .error e) : decode (h :: words) = .reserved e := by
  simp only [decode, reserved]

/-! ### Reserved payloads -/

/-- The length rule of a sequence whose header has no reserved bit set (R85). -/
theorem payloadWords_of_seq {h : Word} {per : Nat}
    (opcode : opc h = 3 ∧ per = 32 ∨ opc h = 4 ∧ per = 16) (clear : field h 16 12 = 0) :
    payloadWords h = .ok (seqWords per (field h 0 16)) := by
  rcases opcode with ⟨opcode, rfl⟩ | ⟨opcode, rfl⟩
  all_goals simp only [payloadWords, opcode, if_neg (not_not.2 clear)]

theorem decode_of_decodePacket_error {h : Word} {payload : List Word} {e : DecodeError}
    (rest : List Word) (len : payloadWords h = .ok payload.length)
    (packet : decodePacket h payload = .error e) :
    decode (h :: (payload ++ rest)) = .reserved e := by
  simp [decode, len, packet]

/-- The pairs above a codeword's last symbol are 0 where the padding is accepted (R75). -/
theorem payloadPair_of_padOkTri {n i : Nat} {ws : List Word} (padding : padOkTri n ws = true)
    (above : n ≤ i) (inside : i < 16 * ws.length) : payloadPair ws i = 0 := by
  induction ws generalizing n i with
  | nil => cases inside
  | cons w ws ih =>
    simp only [padOkTri, Bool.and_eq_true, beq_iff_eq] at padding
    obtain ⟨nothing, later⟩ := padding
    by_cases first : i < 16
    · have below : w.toNat < (2 ^ 2) ^ i :=
        ((Nat.div_eq_zero_iff_lt (Nat.pow_pos (by omega))).1 nothing).trans_le
          (Nat.pow_le_pow_right (by omega) (by omega))
      rw [payloadPair_cons_of_lt _ _ first, field, Nat.pow_mul, Nat.div_eq_of_lt below,
        Nat.zero_mod]
    · obtain ⟨j, rfl⟩ := Nat.exists_eq_add_of_le' (Nat.le_of_not_lt first)
      rw [payloadPair_cons_add]
      rw [List.length_cons] at inside
      exact ih later (by omega) (by omega)

section
variable {h : Word} {ws : List Word} {i : Nat}

/-- Were the padding accepted, the payload would be SENDRAW's bits and 0 above them (R74,
R83 (d)). -/
theorem decode_of_raw_padding (rest : List Word) (opcode : opc h = 3) (clear : field h 16 12 = 0)
    (words : ws.length = seqWords 32 (field h 0 16)) (above : field h 0 16 ≤ i)
    (inside : i < 32 * ws.length) (set : payloadBit ws i = true) :
    decode (h :: (ws ++ rest)) = .reserved .nonzeroPadding := by
  have len : payloadWords h = .ok ws.length :=
    words ▸ payloadWords_of_seq (.inl ⟨opcode, rfl⟩) clear
  cases padding : padOkRaw (field h 0 16) ws with
  | false =>
    exact decode_of_decodePacket_error rest len (by simp [decodePacket, opcode, padding])
  | true =>
    have packet : decodePacket h ws = .ok (.sendraw (unpackRaw (field h 0 16) ws)) := by
      simp [decodePacket, opcode, padding]
    obtain ⟨count, places⟩ := (decode_eq_sendraw_iff rest _ opcode clear words).1
      (decode_cons_append rest len packet)
    have place := places i inside
    rw [set, List.getElem?_eq_none (count.trans_le above)] at place
    cases place

/-- Padding is looked at before the symbols (R75, R83 (d)). -/
theorem decode_of_tri_padding (rest : List Word) (opcode : opc h = 4) (clear : field h 16 12 = 0)
    (words : ws.length = seqWords 16 (field h 0 16)) (above : field h 0 16 ≤ i)
    (inside : i < 16 * ws.length) (set : payloadPair ws i ≠ 0) :
    decode (h :: (ws ++ rest)) = .reserved .nonzeroPadding := by
  have len : payloadWords h = .ok ws.length :=
    words ▸ payloadWords_of_seq (.inr ⟨opcode, rfl⟩) clear
  have padding : ¬ padOkTri (field h 0 16) ws = true := fun accepted =>
    set (payloadPair_of_padOkTri accepted above inside)
  exact decode_of_decodePacket_error rest len (by simp [decodePacket, opcode, padding])

theorem sendtri_of_decodePacket {command : Instr} (opcode : opc h = 4)
    (packet : decodePacket h ws = .ok command) : ∃ syms, command = .sendtri syms := by
  simp only [decodePacket, opcode] at packet
  split at packet
  · split at packet
    · next syms _ => exact ⟨syms, (Except.ok.inj packet).symm⟩
    · cases packet
  · cases packet

/-- No symbol has the code `0b11`, so no codeword has it in its payload (R72, R83 (e)). -/
theorem decode_of_reservedSymbol (rest : List Word) (opcode : opc h = 4)
    (clear : field h 16 12 = 0) (words : ws.length = seqWords 16 (field h 0 16))
    (inside : i < field h 0 16) (code : payloadPair ws i = 3) :
    ∃ e, decode (h :: (ws ++ rest)) = .reserved e := by
  have len : payloadWords h = .ok ws.length :=
    words ▸ payloadWords_of_seq (.inr ⟨opcode, rfl⟩) clear
  have room := le_mul_seqWords (per := 16) (field h 0 16) (by omega)
  cases packet : decodePacket h ws with
  | error e => exact ⟨e, decode_of_decodePacket_error rest len packet⟩
  | ok command =>
    obtain ⟨syms, rfl⟩ := sendtri_of_decodePacket opcode packet
    obtain ⟨count, places⟩ := (decode_eq_sendtri_iff rest syms opcode clear words).1
      (decode_cons_append rest len packet)
    have place := places i (words ▸ inside.trans_le room)
    rw [code, List.getElem?_eq_getElem (count ▸ inside)] at place
    cases symbol : syms[i]'(count ▸ inside) <;> simp [symbol, codeOfSym] at place

end

/-! ### Steps that refuse -/

/-- A table, well-formed or not, is decoded from its packet (R81, R105). -/
theorem decode_encode_setprotoTbl (p : Proto) (rest : List Word) :
    decode (encode (.setprotoTbl p) ++ rest) = .command (.setprotoTbl p) rest := by
  have len : payloadWords (header 2 p.inverted.toNat) = .ok 7 := by cases p.inverted <;> rfl
  exact decode_cons_append rest len (decodePacket_setprotoTbl p)

namespace Machine

theorem step_of_decode_reserved {s : State} {e : DecodeError} (rst : s.rst = false)
    (idle : s.seqState = .idle) (noOffer : s.rsp = none)
    (decoded : decode (s.pkt ++ s.cmdIn) = .reserved e) : step s = .refused (.reserved e) := by
  have fetched : fetch s = .reserved e := by simp only [fetch, decoded]
  simp only [step_fetch rst idle noOffer, fetched]

/-- Settles O41: the decoder names (a) to (e), the command refuses (f). -/
theorem reservedEncodingsAreRefused : Obligations.ReservedEncodingsAreRefused := by
  intro s h ws rest rst idle noOffer stream
  have refuses {e : DecodeError} (decoded : decode (h :: (ws ++ rest)) = .reserved e) :
      step s = .refused (.reserved e) :=
    step_of_decode_reserved rst idle noOffer (stream ▸ decoded)
  have refusesHeader {e : DecodeError} (reserved : payloadWords h = .error e) :
      step s = .refused (.reserved e) := refuses (decode_of_payloadWords_error _ reserved)
  refine ⟨fun opcode => refusesHeader (payloadWords_of_reservedOpcode opcode),
    fun bits => refusesHeader (payloadWords_of_reservedBits bits),
    fun opcode clear index => refusesHeader (payloadWords_of_reservedIndex opcode clear index),
    ?pattern, ?raw, ?tri, ?symbol, ?table⟩
  case pattern =>
    rintro opcode clear ⟨i, inside, above, set⟩
    exact refusesHeader (payloadWords_of_pattern_padding opcode clear inside above set)
  case raw =>
    rintro opcode clear words ⟨i, above, inside, set⟩
    exact refuses (decode_of_raw_padding rest opcode clear words above inside set)
  case tri =>
    rintro opcode clear words ⟨i, above, inside, set⟩
    exact refuses (decode_of_tri_padding rest opcode clear words above inside set)
  case symbol =>
    rintro opcode clear words ⟨i, inside, code⟩
    obtain ⟨e, decoded⟩ := decode_of_reservedSymbol rest opcode clear words inside code
    exact ⟨e, refuses decoded⟩
  case table =>
    intro p packet illFormed
    have decoded : decode (s.pkt ++ s.cmdIn) = .command (.setprotoTbl p) rest := by
      rw [stream, ← List.cons_append, packet, decode_encode_setprotoTbl]
    rw [step_of_decode_command rst idle noOffer decoded]
    exact if_neg illFormed

/-- What a refusing step can be: words that decode as reserved, or a command that refuses. -/
theorem step_refused_cases {s : State} {r : Refusal} (h : step s = .refused r) :
    s.rst = false ∧ s.seqState = .idle ∧ s.rsp = none ∧
    ((∃ e, r = .reserved e ∧ decode (s.pkt ++ s.cmdIn) = .reserved e) ∨
      ∃ i rest, decode (s.pkt ++ s.cmdIn) = .command i rest ∧
        exec i { s with pkt := [], cmdIn := rest } = .refused r) := by
  have rst : s.rst = false := by
    cases reset : s.rst with
    | false => rfl
    | true => cases (step_reset reset).symm.trans h
  have idle : s.seqState = .idle := by
    cases mode : s.seqState with
    | idle => rfl
    | transmitting => cases (step_transmitting rst mode).symm.trans h
  have noOffer : s.rsp = none := by
    cases offer : s.rsp with
    | none => rfl
    | some a => cases (step_response rst idle offer).symm.trans h
  refine ⟨rst, idle, noOffer, ?_⟩
  cases decoded : decode (s.pkt ++ s.cmdIn) with
  | more => cases (step_of_decode_more rst idle noOffer decoded).symm.trans h
  | reserved e =>
    have refused := (step_of_decode_reserved rst idle noOffer decoded).symm.trans h
    exact .inl ⟨e, (Host.Outcome.refused.inj refused).symm, rfl⟩
  | command i rest =>
    exact .inr ⟨i, rest, rfl, (step_of_decode_command rst idle noOffer decoded).symm.trans h⟩

/-- Settles O42: a command that a packet carries is well-formed and answers, or is a table. -/
theorem nothingElseIsRefused : Obligations.NothingElseIsRefused := by
  intro s r h
  obtain ⟨rst, idle, noOffer, reserved | ⟨i, rest, decoded, refused⟩⟩ := step_refused_cases h
  · exact ⟨rst, idle, noOffer, .inl reserved⟩
  · refine ⟨rst, idle, noOffer, .inr ?_⟩
    obtain ⟨-, wf | ⟨p, rfl⟩⟩ := encodeOfDecodeIsThePacket _ _ _ decoded
    · obtain ⟨t, a, answers, -⟩ := exec_begins wf { s with pkt := [], cmdIn := rest }
      cases answers.symm.trans refused
    · simp only [exec, execSetprotoTbl] at refused
      split at refused
      · cases refused
      · next illFormed =>
        exact ⟨(Host.Outcome.refused.inj refused).symm, p, rest, decoded, illFormed⟩

end Machine

end Sys2Proof
end

section
/-! The response word (R82) and the source's operations as commands (R86, R87). -/

namespace Sys2Proof

namespace Machine

/-! ### The response word -/

/-- A response word is laid out as a header is: a code in 31:28 and the fields under it. -/
theorem Resp.word_eq_header (r : Resp) : r.word = header r.code r.val.toNat := rfl

theorem Resp.code_le (r : Resp) : r.code ≤ 3 := by
  rcases r with _ | v | _ | _ | _
  all_goals simp [Resp.code, ErrorKind.code]

theorem Resp.word_fields (r : Resp) :
    field r.word 28 4 = r.code ∧ field r.word 5 23 = 0 ∧ field r.word 0 5 = r.val.toNat := by
  have code := r.code_le
  have val := r.val.isLt
  rw [Resp.word_eq_header, field_header (by omega) (by omega), field_header (by omega) (by omega),
    field_header (by omega) (by omega)]
  omega

theorem Resp.val_eq_zero {r : Resp} (other : ∀ v, r ≠ .okv v) : r.val = 0 := by
  cases r with
  | ok => rfl
  | okv v => exact absurd rfl (other v)
  | err e => rfl

theorem Resp.code_iff (r : Resp) :
    (r.code = 0 ↔ r = .ok ∨ ∃ v, r = .okv v) ∧ (r.code = 1 ↔ r = .err .invalidChannel) ∧
    (r.code = 2 ↔ r = .err .invalidAddress) ∧ (r.code = 3 ↔ r = .err .invalidPattern) := by
  rcases r with _ | v | _ | _ | _
  all_goals simp [Resp.code, ErrorKind.code]

/-- Settles O54: the word's three fields, then the code and the value of each response. -/
theorem responseWordFields : Obligations.ResponseWordFields := by
  intro r
  obtain ⟨rc, between, val⟩ := r.word_fields
  obtain ⟨ok, channel, address, pattern⟩ := r.code_iff
  refine ⟨rc, between, val, r.code_le, ok, channel, address, pattern, Resp.val_eq_zero, ?_, ?_⟩
  · rintro v rfl
    exact ⟨rfl, val⟩
  · intro other
    rw [val, Resp.val_eq_zero other]
    rfl

/-! ### Strings over `{'0','1'}` -/

theorem bitOfChar_of_mem {c : Char} (alphabet : c = '0' ∨ c = '1') :
    bitOfChar c = some (c == '1') := by
  rcases alphabet with rfl | rfl
  · rfl
  · rfl

theorem bitOfChar_of_not_mem {c : Char} (other : c ≠ '0' ∧ c ≠ '1') : bitOfChar c = none := by
  unfold bitOfChar
  split
  · exact absurd rfl other.1
  · exact absurd rfl other.2
  · rfl

theorem mapM_bitOfChar_of_alphabet {str : List Char} (alphabet : ∀ c ∈ str, c = '0' ∨ c = '1') :
    str.mapM bitOfChar = some (str.map (· == '1')) := by
  induction str with
  | nil => rfl
  | cons c str ih =>
    obtain ⟨first, others⟩ := List.forall_mem_cons.1 alphabet
    rw [List.mapM_cons, bitOfChar_of_mem first, ih others]
    rfl

theorem mapM_bitOfChar_eq_none {str : List Char} (other : ∃ c ∈ str, c ≠ '0' ∧ c ≠ '1') :
    str.mapM bitOfChar = none := by
  induction str with
  | nil => simp at other
  | cons c str ih =>
    rw [List.mapM_cons]
    simp only [List.mem_cons, exists_eq_or_imp] at other
    rcases other with first | later
    · rw [bitOfChar_of_not_mem first]
      rfl
    · rw [ih later]
      cases bitOfChar c <;> rfl

/-- A string has as many bits as characters. -/
theorem length_of_mapM_bitOfChar {str : List Char} {bits : List Bool}
    (read : str.mapM bitOfChar = some bits) : bits.length = str.length := by
  by_cases other : ∃ c ∈ str, c ≠ '0' ∧ c ≠ '1'
  · rw [mapM_bitOfChar_eq_none other] at read
    cases read
  · have alphabet : ∀ c ∈ str, c = '0' ∨ c = '1' := by
      simpa only [not_exists, not_and, ne_eq, Decidable.not_not, Decidable.or_iff_not_imp_left]
        using other
    rw [mapM_bitOfChar_of_alphabet alphabet] at read
    rw [← Option.some.inj read, List.length_map]

/-- Settles O59: character by character. -/
theorem sendStringIsSendraw : Obligations.SendStringIsSendraw := by
  refine fun str => ⟨fun alphabet => ?_, fun other => ?_⟩
  · rw [SourceOp.expand, mapM_bitOfChar_of_alphabet alphabet]
    rfl
  · rw [SourceOp.expand, mapM_bitOfChar_eq_none other]
    rfl

/-! ### Patterns and tables -/

/-- Five characters' number is below 32, so the 5-bit address is that number (R121, R122). -/
theorem addressOf_toNat {bits : List Bool} (five : bits.length = 5) :
    (addressOf bits).toNat = natOfBits bits := by
  have below : natOfBits bits < 2 ^ 5 := five ▸ natOfBits_lt bits
  rw [addressOf, BitVec.toNat_ofNat, Nat.mod_eq_of_lt below]

/-- ADDRPAT of five characters answers with their address (R122). -/
theorem exec_addrpat_of_five {bits : List Bool} (five : bits.length = 5) (s : State) :
    exec (.addrpat 5 bits) s = .next (respond (.okv (addressOf bits)) s) := by
  simp [exec, execAddrpat, five]

/-- Settles O58: the number is the pattern's address. -/
theorem patternIsItsGroupAddress : Obligations.PatternIsItsGroupAddress := by
  intro pattern bits s read len
  have five : bits.length = 5 := (length_of_mapM_bitOfChar read).trans len
  refine ⟨addressOf bits, ?_, ?_, fun ch => ?_, (addressOf bits).isLt⟩
  · rw [SourceOp.expand, read, Option.map_some, five, List.take_of_length_le (by omega)]
  · exact exec_addrpat_of_five five s
  · rw [SourceOp.expand, addressOf_toNat five]

theorem rom_of_registryIndex {p : Proto} {k : Nat} (found : registryIndex p = some k) :
    rom k = some p :=
  beq_iff_eq.1 (List.find?_some (p := fun k => rom k == some p) found)

/-- Settles O60: a registry row is well-formed, so both commands install it. -/
theorem setProtocolByRowOrByTable : Obligations.SetProtocolByRowOrByTable := by
  intro p k s found
  have row := rom_of_registryIndex found
  have byTable : exec (.setprotoTbl p) s = .next (respond .ok (writeProto p s)) :=
    if_pos (rom_wellFormed row)
  have byRow : exec (.setprotoRom k) s = .next (respond .ok (writeProto p s)) := by
    simp only [exec, execSetprotoRom, row]
  exact ⟨byRow.trans byTable.symm, byTable⟩

end Machine

/-! ### Written packets -/

/-- Settles O40: each packet is evaluated. -/
theorem writtenPacketsDecode : Obligations.WrittenPacketsDecode := by
  unfold Obligations.WrittenPacketsDecode
  decide

end Sys2Proof
end

section
/-! The registry (R102, R107) and the commands that install a protocol table (R104 to R106). -/

namespace Sys2Proof

namespace Machine

/-! ### The registry -/

/-- The registry has no row 0 and none above 7 (R51, R102). -/
theorem rom_eq_none_iff (k : Nat) : rom k = none ↔ k = 0 ∨ 8 ≤ k := by
  constructor
  · intro absent
    by_contra inside
    obtain ⟨p, row⟩ := rom_of_range (k := k) (by omega) (by omega)
    exact absurd (absent.symm.trans row) nofun
  · rintro (rfl | above)
    · rfl
    · obtain ⟨n, rfl⟩ := Nat.exists_eq_add_of_le' above
      rfl

/-- Settles O1: each row is read off, and the rest is outside the registry. -/
theorem registryHoldsTheSevenRows : Obligations.RegistryHoldsTheSevenRows :=
  ⟨rfl, rfl, rfl, rfl, rfl, rfl, rfl, fun k => (rom_eq_none_iff k).2⟩

/-- A row with its durations and the largest of them also stands in the registry as a well-formed
table (R107). -/
theorem exists_row_of_durations {k : Nat} {p : Proto} {ds : List Nat} {largest : Nat}
    (row : rom k = some p) (each : durations p = ds) (top : ds.max? = some largest) :
    ∃ p, rom k = some p ∧ durations p = ds ∧ (durations p).max? = some largest ∧ p.WellFormed :=
  ⟨p, row, each, each ▸ top, rom_wellFormed row⟩

/-- Settles O2: the products of each row are computed; every registry row is well-formed. -/
theorem registryDurationsAndWellFormedness : Obligations.RegistryDurationsAndWellFormedness := by
  intro row listed
  simp only [List.mem_cons, List.not_mem_nil, or_false] at listed
  obtain rfl | rfl | rfl | rfl | rfl | rfl | rfl := listed
  all_goals exact exists_row_of_durations rfl rfl rfl

/-! ### The commands -/

/-- SETPROTO.TBL of a well-formed table installs it and answers OK (R105). -/
theorem exec_setprotoTbl_of_wellFormed {p : Proto} (wf : p.WellFormed) (s : State) :
    exec (.setprotoTbl p) s = .next (respond .ok (writeProto p s)) :=
  if_pos wf

/-- SETPROTO.TBL of any other table is refused (R106). -/
theorem exec_setprotoTbl_of_illFormed {p : Proto} (illFormed : ¬ p.WellFormed) (s : State) :
    exec (.setprotoTbl p) s = .refused .illFormedTable :=
  if_neg illFormed

/-- SETPROTO.ROM of a registry row installs it and answers OK (R104). -/
theorem exec_setprotoRom_of_row {k : Nat} {p : Proto} (row : rom k = some p) (s : State) :
    exec (.setprotoRom k) s = .next (respond .ok (writeProto p s)) := by
  simp only [exec, execSetprotoRom, row]

/-- The packet of SETPROTO.ROM is the opcode over the row's number (R80). -/
theorem encode_setprotoRom (k : Nat) :
    encode (.setprotoRom k) = [BitVec.ofNat 32 (0x10000000 + k)] := rfl

/-- Settles O3: the row exists and is well-formed, so both commands install it. -/
theorem setprotoRomInstallsItsRow : Obligations.SetprotoRomInstallsItsRow := by
  intro k s first last
  obtain ⟨p, row⟩ := rom_of_range first last
  exact ⟨p, row, exec_setprotoRom_of_row row s,
    exec_setprotoTbl_of_wellFormed (rom_wellFormed row) s, encode_setprotoRom k⟩

/-- Settles O4: the check of the table decides which. -/
theorem setprotoTblInstallsAWellFormedTable : Obligations.SetprotoTblInstallsAWellFormedTable :=
  fun _ s => ⟨fun wf => exec_setprotoTbl_of_wellFormed wf s,
    fun illFormed => exec_setprotoTbl_of_illFormed illFormed s⟩

end Machine

end Sys2Proof
end

section
/-! The encoder: the codewords of the two schemes and their shape (R121 to R132), and the commands
that send them (R122, R126, R127, R130, R131). -/

namespace Sys2Proof

namespace Machine

/-! ### Windows of '0' and 'F' -/

/-- What the address, channel and code parts of a codeword have in common (R124, R125, R128):
`width` symbols, `'0'` at the marked positions and `'F'` at the others. -/
def window (width : Nat) (marked : Nat → Prop) [DecidablePred marked] : List Sym3 :=
  (List.range width).map fun i => if marked i then .s0 else .sF

theorem oneHot_eq_window (width : Nat) (k : Int) :
    oneHot width k = window width fun j => (j : Int) = k - 1 := by
  simp [oneHot, window, ← List.map_eq_flatMap]

theorem chanA_eq_window (ch : Int) : chanA ch = window 5 fun j => (j : Int) = ch - 1 :=
  oneHot_eq_window 5 ch

theorem codeB_eq_window (k : Int) : codeB k = window 4 fun j => (j : Int) = k - 1 :=
  oneHot_eq_window 4 k

theorem addressSyms_eq_window (ga : Nat) :
    addressSyms ga = window 5 fun i => ga.testBit i = true := rfl

section
variable {width : Nat} {marked marked' : Nat → Prop} [DecidablePred marked] [DecidablePred marked']

@[simp] theorem window_length : (window width marked).length = width := by
  rw [window, List.length_map, List.length_range]

theorem window_getElem? {i : Nat} (inside : i < width) :
    (window width marked)[i]? = some (if marked i then .s0 else .sF) := by
  rw [window, List.getElem?_map, List.getElem?_range inside, Option.map_some]

theorem window_getElem?_eq_s0_iff {i : Nat} (inside : i < width) :
    (window width marked)[i]? = some .s0 ↔ marked i := by
  rw [window_getElem? inside, Option.some_inj, ite_eq_left_iff]
  simp

theorem s1_not_mem_window : Sym3.s1 ∉ window width marked := by
  rw [window, List.mem_map]
  rintro ⟨i, -, symbol⟩
  split at symbol
  · cases symbol
  · cases symbol

/-- A window determines its marks. -/
theorem marked_iff_of_window_eq (same : window width marked = window width marked') {i : Nat}
    (inside : i < width) : marked i ↔ marked' i := by
  have symbol := window_getElem?_eq_s0_iff (marked := marked) inside
  rw [← symbol, same, window_getElem?_eq_s0_iff inside]

end

/-- A table entry determines its number (R124, R128). -/
theorem oneHot_inj {width : Nat} {k k' : Int} (first : 1 ≤ k) (last : k ≤ width)
    (same : oneHot width k = oneHot width k') : k = k' := by
  rw [oneHot_eq_window, oneHot_eq_window] at same
  have mark := marked_iff_of_window_eq same (i := (k - 1).toNat) (by omega)
  omega

/-- Five symbols determine a 5-bit address: they are its bits, and the bits above are 0 (R121). -/
theorem addressSyms_inj {ga ga' : Nat} (fits : ga < 2 ^ 5) (fits' : ga' < 2 ^ 5)
    (same : addressSyms ga = addressSyms ga') : ga = ga' := by
  refine Nat.eq_of_testBit_eq fun i => ?_
  by_cases inside : i < 5
  · exact Bool.eq_iff_iff.2 (marked_iff_of_window_eq same inside)
  · have above : 2 ^ 5 ≤ 2 ^ i := Nat.pow_le_pow_right (by omega) (by omega)
    rw [Nat.testBit_lt_two_pow (fits.trans_le above), Nat.testBit_lt_two_pow (fits'.trans_le above)]

/-! ### Type A codewords (R125) -/

@[simp] theorem addressSyms_length (ga : Nat) : (addressSyms ga).length = 5 := by
  rw [addressSyms_eq_window, window_length]

@[simp] theorem chanA_length (ch : Int) : (chanA ch).length = 5 := by
  rw [chanA_eq_window, window_length]

@[simp] theorem statusA_length (on : Bool) : (statusA on).length = 2 := by cases on <;> rfl

@[simp] theorem statusA_inj {on on' : Bool} : statusA on = statusA on' ↔ on = on' := by
  cases on <;> cases on' <;> decide

theorem encA_length (ga : Nat) (ch : Int) (on : Bool) : (encA ga ch on).length = 12 := by
  simp [encA]

theorem encA_address (ga : Nat) (ch : Int) (on : Bool) {i : Nat} (inside : i < 5) :
    (encA ga ch on)[i]? = (addressSyms ga)[i]? := by
  rw [encA, List.append_assoc, List.getElem?_append_left (by simpa using inside)]

theorem encA_channel (ga : Nat) (ch : Int) (on : Bool) {j : Nat} (inside : j < 5) :
    (encA ga ch on)[5 + j]? = (chanA ch)[j]? := by
  rw [encA, List.append_assoc, List.getElem?_append_right (by simp), addressSyms_length,
    Nat.add_sub_cancel_left, List.getElem?_append_left (by simpa using inside)]

theorem encA_status (ga : Nat) (ch : Int) (on : Bool) : (encA ga ch on).drop 10 = statusA on :=
  List.drop_left' (by simp)

theorem s1_not_mem_encA (ga : Nat) (ch : Int) (on : Bool) : Sym3.s1 ∉ encA ga ch on := by
  have status : Sym3.s1 ∉ statusA on := by cases on <;> decide
  simp only [encA, addressSyms_eq_window, chanA_eq_window, List.mem_append, not_or]
  exact ⟨⟨s1_not_mem_window, s1_not_mem_window⟩, status⟩

/-- The three parts of a codeword are the three parts of an equal one. -/
theorem encA_parts {ga ga' : Nat} {ch ch' : Int} {on on' : Bool}
    (same : encA ga ch on = encA ga' ch' on') :
    addressSyms ga = addressSyms ga' ∧ chanA ch = chanA ch' ∧ on = on' := by
  obtain ⟨front, status⟩ := List.append_inj' same (by simp)
  obtain ⟨address, channel⟩ := List.append_inj front (by simp)
  exact ⟨address, channel, statusA_inj.1 status⟩

/-! ### Type B codewords (R129) -/

/-- The twelve symbols of a Type B command with both codes in 1..4. -/
def symbolsB (ac cc : Int) (on : Bool) : List Sym3 :=
  codeB ac ++ (codeB cc ++ [.sF, .sF, .sF, statusB on])

theorem encB_eq_none_iff (ac cc : Int) (on : Bool) :
    encB ac cc on = none ↔ badCode ac ∨ badCode cc := by
  rw [encB, ite_eq_left_iff]
  simp only [reduceCtorEq, imp_false, not_not]

theorem encB_eq_some_iff {ac cc : Int} {on : Bool} {cw : List Sym3} :
    encB ac cc on = some cw ↔
      (1 ≤ ac ∧ ac ≤ 4) ∧ (1 ≤ cc ∧ cc ≤ 4) ∧ symbolsB ac cc on = cw := by
  simp [encB, symbolsB, badCode, not_or, and_assoc]

@[simp] theorem codeB_length (k : Int) : (codeB k).length = 4 := by
  rw [codeB_eq_window, window_length]

@[simp] theorem statusB_inj {on on' : Bool} : statusB on = statusB on' ↔ on = on' := by
  cases on <;> cases on' <;> decide

theorem symbolsB_length (ac cc : Int) (on : Bool) : (symbolsB ac cc on).length = 12 := by
  simp [symbolsB]

theorem symbolsB_address (ac cc : Int) (on : Bool) {j : Nat} (inside : j < 4) :
    (symbolsB ac cc on)[j]? = (codeB ac)[j]? := by
  rw [symbolsB, List.getElem?_append_left (by simpa using inside)]

theorem symbolsB_channel (ac cc : Int) (on : Bool) {j : Nat} (inside : j < 4) :
    (symbolsB ac cc on)[4 + j]? = (codeB cc)[j]? := by
  rw [symbolsB, List.getElem?_append_right (by simp), codeB_length, Nat.add_sub_cancel_left,
    List.getElem?_append_left (by simpa using inside)]

theorem symbolsB_status (ac cc : Int) (on : Bool) :
    (symbolsB ac cc on).drop 8 = [.sF, .sF, .sF, statusB on] := by
  rw [symbolsB, ← List.append_assoc, List.drop_left' (by simp)]

theorem s1_not_mem_symbolsB (ac cc : Int) (on : Bool) : Sym3.s1 ∉ symbolsB ac cc on := by
  have status : Sym3.s1 ∉ [Sym3.sF, .sF, .sF, statusB on] := by cases on <;> decide
  simp only [symbolsB, codeB_eq_window, List.mem_append, not_or]
  exact ⟨s1_not_mem_window, s1_not_mem_window, status⟩

theorem symbolsB_parts {ac ac' cc cc' : Int} {on on' : Bool}
    (same : symbolsB ac cc on = symbolsB ac' cc' on') :
    codeB ac = codeB ac' ∧ codeB cc = codeB cc' ∧ on = on' := by
  obtain ⟨address, back⟩ := List.append_inj same (by simp)
  obtain ⟨channel, status⟩ := List.append_inj back (by simp)
  exact ⟨address, channel, by simpa using status⟩

/-! ### The laws of the codewords (R132) -/

/-- Settles O32: each scheme part by part. -/
theorem codewordShapes : Obligations.CodewordShapes := by
  constructor
  · intro ga ch on _ _ _
    refine ⟨encA_length .., fun i inside => ?_, fun j inside => ?_, encA_status ..,
      s1_not_mem_encA _ _ _⟩
    · rw [encA_address _ _ _ inside, addressSyms_eq_window, window_getElem? inside]
    · rw [encA_channel _ _ _ inside, chanA_eq_window, window_getElem?_eq_s0_iff inside]
  · intro ac cc on acFirst acLast ccFirst ccLast
    refine ⟨symbolsB ac cc on, encB_eq_some_iff.2 ⟨⟨acFirst, acLast⟩, ⟨ccFirst, ccLast⟩, rfl⟩,
      symbolsB_length .., fun j inside => ?_, fun j inside => ?_, symbolsB_status ..,
      s1_not_mem_symbolsB _ _ _⟩
    · rw [symbolsB_address _ _ _ inside, codeB_eq_window, window_getElem?_eq_s0_iff inside]
    · rw [symbolsB_channel _ _ _ inside, codeB_eq_window, window_getElem?_eq_s0_iff inside]

/-- Settles O33: equal codewords have equal parts, and each part determines its operand. -/
theorem codewordsDetermineTheirOperands : Obligations.CodewordsDetermineTheirOperands := by
  constructor
  · intro ga ga' ch ch' on on' fits first last fits' _ _ same
    obtain ⟨address, channel, status⟩ := encA_parts same
    exact ⟨addressSyms_inj fits fits' address, oneHot_inj first last channel, status⟩
  · intro ac cc ac' cc' on on' cw encoded encoded'
    obtain ⟨⟨acFirst, acLast⟩, ⟨ccFirst, ccLast⟩, symbols⟩ := encB_eq_some_iff.1 encoded
    obtain ⟨-, -, symbols'⟩ := encB_eq_some_iff.1 encoded'
    obtain ⟨address, channel, status⟩ := symbolsB_parts (symbols.trans symbols'.symm)
    exact ⟨oneHot_inj acFirst acLast address, oneHot_inj ccFirst ccLast channel, status⟩

/-! ### The switch commands -/

/-- Operands in range pass both checks, whichever comes first (R123). -/
theorem validA_of_inRange {ga : Nat} {ch : Int} (fits : ga < 32) (first : 1 ≤ ch) (last : ch ≤ 5)
    (order : Config.FaultOrder) : validA order ga ch = none := by
  have goodChannel : ¬ badChannel ch := by omega
  have goodAddress : ¬ badAddress ga := by omega
  cases order <;> simp only [validA, if_neg goodChannel, if_neg goodAddress]

/-- A Type A command with operands in range is the send of its codeword (R126, R127). -/
theorem switchA_of_inRange {ga : Nat} {ch : Int} (fits : ga < 32) (first : 1 ≤ ch) (last : ch ≤ 5)
    (on : Bool) (s : State) : switchA ga ch on s = send (.tri (encA ga ch on)) s := by
  simp only [switchA, validA_of_inRange fits first last]

/-- A Type B command with codes in range is the send of its codeword (R130, R131). -/
theorem switchB_of_inRange {ac cc : Int} (acFirst : 1 ≤ ac) (acLast : ac ≤ 4) (ccFirst : 1 ≤ cc)
    (ccLast : cc ≤ 4) (on : Bool) (s : State) :
    switchB ac cc on s = send (.tri (symbolsB ac cc on)) s := by
  have encoded : encB ac cc on = some (symbolsB ac cc on) :=
    encB_eq_some_iff.2 ⟨⟨acFirst, acLast⟩, ⟨ccFirst, ccLast⟩, rfl⟩
  simp only [switchB, encoded]

/-- A Type B command with a code out of range does what the policy says (R136). -/
theorem switchB_of_badCode {ac cc : Int} (bad : badCode ac ∨ badCode cc) (on : Bool) (s : State) :
    switchB ac cc on s = invalidB s := by
  simp only [switchB, (encB_eq_none_iff ac cc on).2 bad]

/-- Settles O24: the command sends its codeword, and the codeword evaluates to the symbols written
out. -/
theorem swaOnSendsItsCodeword : Obligations.SwaOnSendsItsCodeword :=
  fun _ _ s fits first last =>
    congrArg Host.Outcome.next (switchA_of_inRange fits first last true s)

/-- Settles O25, as O24. -/
theorem swaOffSendsItsCodeword : Obligations.SwaOffSendsItsCodeword :=
  fun _ _ s fits first last =>
    congrArg Host.Outcome.next (switchA_of_inRange fits first last false s)

/-- Settles O27: the command sends its codeword, and the codeword evaluates to the symbols written
out. -/
theorem swbOnSendsItsCodeword : Obligations.SwbOnSendsItsCodeword :=
  fun _ _ s acFirst acLast ccFirst ccLast =>
    congrArg Host.Outcome.next (switchB_of_inRange acFirst acLast ccFirst ccLast true s)

/-- Settles O28, as O27. -/
theorem swbOffSendsItsCodeword : Obligations.SwbOffSendsItsCodeword :=
  fun _ _ s acFirst acLast ccFirst ccLast =>
    congrArg Host.Outcome.next (switchB_of_inRange acFirst acLast ccFirst ccLast false s)

/-- Settles O29: no codeword is encoded, and the policy decides. -/
theorem swbBadCodesAreSilent : Obligations.SwbBadCodesAreSilent := by
  intro ac cc s i command bad
  have asInvalid : exec i s = .next (invalidB s) := by
    have badCodes : badCode ac ∨ badCode cc := or_assoc.2 bad
    rcases command with rfl | rfl
    · exact congrArg Host.Outcome.next (switchB_of_badCode badCodes true s)
    · exact congrArg Host.Outcome.next (switchB_of_badCode badCodes false s)
  refine ⟨fun policy => ?_, fun policy => ?_⟩
  · rw [asInvalid, invalidB, policy]
    rfl
  · rw [asInvalid, invalidB, policy]
    rfl

/-! ### ADDRPAT (R122) -/

/-- Bit `i` of the address is character `i`. -/
theorem addressOf_getLsbD {pbits : List Bool} {i : Nat} (five : pbits.length = 5) (inside : i < 5) :
    pbits[i]? = some ((addressOf pbits).getLsbD i) := by
  rw [← BitVec.testBit_toNat, addressOf_toNat five, natOfBits_testBit,
    List.getElem?_eq_getElem (five ▸ inside), Option.getD_some]

/-- Settles O30. -/
theorem addrpatParsesFiveCharacters : Obligations.AddrpatParsesFiveCharacters :=
  fun pbits s five => ⟨addressOf pbits, exec_addrpat_of_five five s,
    fun _ inside => addressOf_getLsbD five inside⟩

/-- Settles O31: the length is checked first. -/
theorem addrpatRejectsOtherLengths : Obligations.AddrpatRejectsOtherLengths :=
  fun _ _ _ other => if_pos other

end Machine

end Sys2Proof
end

section
/-! The transmitter as functions (R150 to R156): what each event list is, how many events it has and
how long its delays last. The idea of R167: counts and sums add up along an event list, and a send
repeats one pass. -/

namespace Sys2Proof

namespace Machine

/-! ### The registry, row by row -/

/-- What holds of each of the seven rows holds of every row (R102). -/
theorem forall_row {P : Nat → Proto → Prop} {k : Nat} {p : Proto}
    (each : ∀ k ∈ [1, 2, 3, 4, 5, 6, 7], ∀ p ∈ rom k, P k p) (row : rom k = some p) : P k p := by
  have inside : ¬ (k = 0 ∨ 8 ≤ k) := fun outside =>
    absurd (((rom_eq_none_iff k).2 outside).symm.trans row) nofun
  refine each k ?_ p row
  simp only [List.mem_cons, List.not_mem_nil, or_false]
  omega

/-- Row 6 is the one inverted table (R102). -/
theorem rom_inverted_iff {k : Nat} {p : Proto} (row : rom k = some p) :
    p.inverted = false ↔ k ≠ 6 :=
  forall_row (P := fun k p => p.inverted = false ↔ k ≠ 6) (by decide) row

/-- In every row a zero lasts as long as a one (R167). -/
theorem rom_dBoth_zero_eq_one {k : Nat} {p : Proto} (row : rom k = some p) :
    dBoth p p.zero = dBoth p p.one :=
  forall_row (P := fun _ p => dBoth p p.zero = dBoth p p.one) (by decide) row

/-! ### Levels (R150, R156) -/

theorem adjust_of_upright {p : Proto} (upright : p.inverted = false) (nominal : Bool) :
    adjust p nominal = if nominal then .high else .low := by
  rw [adjust, upright, Bool.false_xor]

theorem adjust_of_inverted {p : Proto} (inverted : p.inverted = true) (nominal : Bool) :
    adjust p nominal = if nominal then .low else .high := by
  rw [adjust, inverted, Bool.true_xor]
  cases nominal with
  | false => rfl
  | true => rfl

/-- Settles O6: the definition, and its two columns. -/
theorem adjustIsExclusiveOr : Obligations.AdjustIsExclusiveOr :=
  ⟨fun _ _ => rfl,
    fun _ upright => ⟨adjust_of_upright upright true, adjust_of_upright upright false⟩,
    fun _ inverted => ⟨adjust_of_inverted inverted true, adjust_of_inverted inverted false⟩,
    fun _ _ => ⟨rfl, rfl⟩⟩

/-- The nominal low is physically low exactly where the table is not inverted (R150). -/
theorem adjust_false_eq_low_iff (p : Proto) : adjust p false = .low ↔ p.inverted = false := by
  cases polarity : p.inverted with
  | false => simp [adjust_of_upright polarity]
  | true => simp [adjust_of_inverted polarity]

/-- The two policies agree exactly where the table is not inverted (R156). -/
theorem idleDrive_agree_iff (p : Proto) :
    idleDrive .physLow p = idleDrive .nominalLow p ↔ p.inverted = false := by
  simp only [idleDrive, idleLevel, List.cons.injEq, Event.set.injEq, and_true]
  rw [eq_comm, adjust_false_eq_low_iff]

/-- Settles O11: by the definition of each policy and the polarity of the table. -/
theorem closingDriveByPolicy : Obligations.ClosingDriveByPolicy := fun p =>
  ⟨rfl, rfl, idleDrive_agree_iff p,
    fun _ row => (idleDrive_agree_iff p).trans (rom_inverted_iff row),
    fun _ r b => ⟨repeated r (passEvents p b), rfl⟩⟩

/-! ### Emissions and symbols (R151 to R153) -/

/-- Settles O7: the two delays are the products because these fit. -/
theorem emissionIsFourEvents : Obligations.EmissionIsFourEvents :=
  fun _ _ high low => ⟨_, _, rfl, delayArg_toNat high, delayArg_toNat low⟩

/-- Settles O8: by the mapping, with the delays of row 1 computed. -/
theorem triStateSymbolsArePaired : Obligations.TriStateSymbolsArePaired := by
  refine ⟨fun _ => ⟨rfl, rfl, rfl⟩, mapTri_length, fun p row => ?_⟩
  obtain rfl := Option.some.inj row
  rfl

/-- Where each symbol of a codeword is rendered as its bits are, so is the whole send (R153). -/
theorem sendEvents_tri_eq_raw {p : Proto} {bitsOf : Sym3 → List Bool}
    (each : ∀ x, mapTri p x = (bitsOf x).flatMap (mapRaw p)) (policy : Config.IdlePolicy) (r : Nat)
    (syms : List Sym3) :
    sendEvents policy p r (.tri syms) = sendEvents policy p r (.raw (syms.flatMap bitsOf)) := by
  have symbols : symbolEvents p (.tri syms) = symbolEvents p (.raw (syms.flatMap bitsOf)) := by
    rw [symbolEvents, symbolEvents, List.flatMap_assoc]
    exact List.flatMap_congr fun x _ => each x
  rw [sendEvents, sendEvents, passEvents, passEvents, symbols]

/-- Settles O9: the codeword clause symbol by symbol. -/
theorem codewordSendsAsItsBitString : Obligations.CodewordSendsAsItsBitString := by
  refine ⟨fun _ => ⟨rfl, rfl⟩, mapRaw_length, fun _ => ⟨rfl, rfl, rfl⟩, fun policy p r syms => ?_⟩
  refine sendEvents_tri_eq_raw (fun x => ?_) policy r syms
  cases x with
  | s0 => rfl
  | s1 => rfl
  | sF => rfl

/-! ### Passes (R154, R155) -/

theorem passEvents_tri_cons (p : Proto) (x : Sym3) (xs : List Sym3) :
    passEvents p (.tri (x :: xs)) = mapTri p x ++ passEvents p (.tri xs) := by
  simp only [passEvents, symbolEvents, List.flatMap_cons, List.append_assoc]

theorem passEvents_raw_cons (p : Proto) (x : Bool) (xs : List Bool) :
    passEvents p (.raw (x :: xs)) = mapRaw p x ++ passEvents p (.raw xs) := by
  simp only [passEvents, symbolEvents, List.flatMap_cons, List.append_assoc]

/-- Settles O10: a send by `sendEvents_succ`, a pass symbol by symbol. -/
theorem sendUnrollsPassByPass : Obligations.SendUnrollsPassByPass := fun policy p b =>
  ⟨rfl, fun r => sendEvents_succ policy p r b, rfl, rfl, passEvents_tri_cons p,
    passEvents_raw_cons p⟩

/-! ### Quantities that add up (R167) -/

/-- A quantity of event lists that is the sum over the parts of a list. -/
def AddsUp (m : List Event → Nat) : Prop := ∀ es fs, m (es ++ fs) = m es + m fs

theorem addsUp_length : AddsUp List.length := fun _ _ => List.length_append

theorem addsUp_setCount : AddsUp setCount := fun es fs => by
  rw [setCount, List.filter_append, List.length_append]
  rfl

theorem addsUp_nominal : AddsUp nominal := fun es fs => by
  rw [nominal, List.map_append, List.sum_append]
  rfl

theorem AddsUp.nil {m : List Event → Nat} (adds : AddsUp m) : m [] = 0 := by
  have twice := adds [] []
  rw [List.append_nil] at twice
  omega

theorem AddsUp.flatMap {m : List Event → Nat} (adds : AddsUp m) {α : Type} (f : α → List Event)
    (xs : List α) : m (xs.flatMap f) = (xs.map fun x => m (f x)).sum := by
  induction xs with
  | nil => exact adds.nil
  | cons x xs ih => rw [List.flatMap_cons, adds, ih, List.map_cons, List.sum_cons]

/-- Symbols of one size add up to that size times their number. -/
theorem AddsUp.flatMap_of_const {m : List Event → Nat} (adds : AddsUp m) {α : Type}
    {f : α → List Event} {size : Nat} (each : ∀ x, m (f x) = size) (xs : List α) :
    m (xs.flatMap f) = size * xs.length := by
  simp only [adds.flatMap, each, List.map_const', List.sum_replicate_nat, Nat.mul_comm]

theorem AddsUp.passEvents {m : List Event → Nat} (adds : AddsUp m) (p : Proto) (b : Buf) :
    m (passEvents p b) = m (symbolEvents p b) + m (emit p p.sync) :=
  adds _ _

/-- A send is `r` passes and the closing drive (R155). -/
theorem AddsUp.sendEvents {m : List Event → Nat} (adds : AddsUp m) (policy : Config.IdlePolicy)
    (p : Proto) (r : Nat) (b : Buf) :
    m (sendEvents policy p r b) =
      r * (m (symbolEvents p b) + m (emit p p.sync)) + m (idleDrive policy p) := by
  induction r with
  | zero =>
    rw [Nat.zero_mul, Nat.zero_add]
    rfl
  | succ r ih =>
    rw [sendEvents_succ, adds, adds.passEvents, ih, Nat.succ_mul]
    omega

/-! ### Counts (R166, R167) -/

theorem setCount_mapTri (p : Proto) (x : Sym3) : setCount (mapTri p x) = 4 := by
  cases x with
  | s0 => rfl
  | s1 => rfl
  | sF => rfl

theorem setCount_mapRaw (p : Proto) (b : Bool) : setCount (mapRaw p b) = 2 := rfl

theorem symbolEvents_length (p : Proto) (b : Buf) :
    (symbolEvents p b).length = b.eventsPerSymbol * b.len := by
  cases b with
  | tri syms => exact addsUp_length.flatMap_of_const (mapTri_length p) syms
  | raw bits => exact addsUp_length.flatMap_of_const (mapRaw_length p) bits

theorem passEvents_length (p : Proto) (b : Buf) :
    (passEvents p b).length = b.eventsPerSymbol * b.len + 4 := by
  rw [addsUp_length.passEvents, symbolEvents_length, emit_length]

/-- The number of steps R166 counts. -/
theorem sendEvents_length (policy : Config.IdlePolicy) (p : Proto) (r : Nat) (b : Buf) :
    (sendEvents policy p r b).length = r * (b.eventsPerSymbol * b.len + 4) + 1 := by
  rw [addsUp_length.sendEvents, symbolEvents_length]
  rfl

theorem setCount_symbolEvents_tri (p : Proto) (syms : List Sym3) :
    setCount (symbolEvents p (.tri syms)) = 4 * syms.length :=
  addsUp_setCount.flatMap_of_const (setCount_mapTri p) syms

theorem setCount_symbolEvents_raw (p : Proto) (bits : List Bool) :
    setCount (symbolEvents p (.raw bits)) = 2 * bits.length :=
  addsUp_setCount.flatMap_of_const (setCount_mapRaw p) bits

/-- Besides the drives of its symbols a pass has the two of its sync emission, and a send the
closing one. -/
theorem setCount_sendEvents {p : Proto} {b : Buf} {drives : Nat}
    (symbols : setCount (symbolEvents p b) = drives) (policy : Config.IdlePolicy) (r : Nat) :
    setCount (sendEvents policy p r b) = r * (drives + 2) + 1 := by
  rw [addsUp_setCount.sendEvents, symbols]
  rfl

/-! ### Sums of delays (R167) -/

/-- The delays of an emission are the two phases of its waveform, where these fit (R151). -/
theorem nominal_emit {p : Proto} {w : Waveform} (high : dHigh p w < 2 ^ 32)
    (low : dLow p w < 2 ^ 32) : nominal (emit p w) = dBoth p w := by
  have delays : nominal (emit p w) =
      (delayArg p.pulseLength w.high).toNat + (delayArg p.pulseLength w.low).toNat := by
    simp [nominal, emit, phaseEvent, Event.micros]
  rw [delays, delayArg_toNat high, delayArg_toNat low]
  rfl

/-- In a well-formed table every waveform lasts its two phases (R25, R151). -/
theorem nominal_emit_of_wellFormed {p : Proto} (wf : p.WellFormed) :
    nominal (emit p p.zero) = dBoth p p.zero ∧ nominal (emit p p.one) = dBoth p p.one ∧
      nominal (emit p p.sync) = dBoth p p.sync := by
  obtain ⟨-, syncHigh, syncLow, zeroHigh, zeroLow, oneHigh, oneLow⟩ := wf
  exact ⟨nominal_emit zeroHigh zeroLow, nominal_emit oneHigh oneLow, nominal_emit syncHigh syncLow⟩

/-- What the symbols last in mode TRI and in mode RAW (R167). -/
theorem nominal_symbols {p : Proto} (wf : p.WellFormed) :
    nominal (mapTri p .s0) = 2 * dBoth p p.zero ∧ nominal (mapTri p .s1) = 2 * dBoth p p.one ∧
      nominal (mapTri p .sF) = dBoth p p.zero + dBoth p p.one ∧
      nominal (mapRaw p false) = dBoth p p.zero ∧ nominal (mapRaw p true) = dBoth p p.one := by
  obtain ⟨zero, one, -⟩ := nominal_emit_of_wellFormed wf
  refine ⟨?_, ?_, ?_, zero, one⟩
  · rw [mapTri, addsUp_nominal, zero, Nat.two_mul]
  · rw [mapTri, addsUp_nominal, one, Nat.two_mul]
  · rw [mapTri, addsUp_nominal, zero, one]

/-- The closing drive takes no time: a send lasts its passes (R167). -/
theorem nominal_sendEvents {p : Proto} (wf : p.WellFormed) (policy : Config.IdlePolicy) (r : Nat)
    (b : Buf) :
    nominal (sendEvents policy p r b) = r * (nominal (symbolEvents p b) + dBoth p p.sync) := by
  obtain ⟨-, -, sync⟩ := nominal_emit_of_wellFormed wf
  rw [addsUp_nominal.sendEvents, sync]
  rfl

/-- Settles O12: counts and sums add up, symbol by symbol and pass by pass. -/
theorem countsAndDurationsOfASend : Obligations.CountsAndDurationsOfASend := by
  refine ⟨fun p => ⟨mapTri_length p, mapRaw_length p, nominal_symbols⟩,
    fun policy p r syms => ⟨passEvents_length p (.tri syms), sendEvents_length policy p r _,
      setCount_sendEvents (setCount_symbolEvents_tri p syms) policy r,
      fun wf => ?_⟩,
    fun policy p r bits => ⟨passEvents_length p (.raw bits), sendEvents_length policy p r _,
      setCount_sendEvents (setCount_symbolEvents_raw p bits) policy r,
      fun wf => ?_⟩,
    fun _ _ => rom_dBoth_zero_eq_one⟩
  · rw [nominal_sendEvents wf, symbolEvents, addsUp_nominal.flatMap]
  · rw [nominal_sendEvents wf, symbolEvents, addsUp_nominal.flatMap]

end Machine

end Sys2Proof
end

section
/-! The send commands and the sequencer step by step (R158 to R166, R208). -/

namespace Sys2Proof

namespace Machine

/-! ### The start of a send (R157, R161) -/

/-- What a send command does at once: it sets the sequencer to its first event, or, with the pin
absent, answers OK. -/
theorem send_eq_ite (b : Buf) (s : State) :
    send b s =
      if s.pinPresent then
        { s with seqState := .transmitting, buf := b, rep := 0, slot := 0, sub := .first,
                 ph := .driveHigh }
      else { s with rsp := some .ok } := rfl

/-- Settles O14: the command is the send of its bits. -/
theorem sendrawStartsASend : Obligations.SendrawStartsASend :=
  fun bits s => congrArg Host.Outcome.next (send_eq_ite (.raw bits) s)

/-- Settles O15: the command is the send of its codeword. -/
theorem sendtriStartsASend : Obligations.SendtriStartsASend :=
  fun syms s => congrArg Host.Outcome.next (send_eq_ite (.tri syms) s)

/-! ### The waveform at a position (R162) -/

/-- In a symbol's slot of mode RAW the bit alone decides. -/
theorem wave_raw_of_symbol {bits : List Bool} {slot : Nat} {bit : Bool}
    (symbol : bits[slot]? = some bit) (p : Proto) (sub : Sub) :
    (Buf.raw bits).wave p slot sub = (Buf.raw [bit]).wave p 0 sub := by
  simp only [Buf.wave, symbol, List.getElem?_cons_zero]

/-- In a symbol's slot of mode TRI the symbol and the emission decide. -/
theorem wave_tri_of_symbol {syms : List Sym3} {slot : Nat} {x : Sym3}
    (symbol : syms[slot]? = some x) (p : Proto) (sub : Sub) :
    (Buf.tri syms).wave p slot sub = (Buf.tri [x]).wave p 0 sub := by
  simp only [Buf.wave, symbol, List.getElem?_cons_zero]

theorem wave_sync (b : Buf) (p : Proto) (sub : Sub) : b.wave p b.len sub = p.sync := by
  cases b with
  | tri syms => simp [Buf.wave, Buf.len]
  | raw bits => simp [Buf.wave, Buf.len]

/-- Settles O16: each clause reads the symbol of its slot. -/
theorem waveAtAPosition : Obligations.WaveAtAPosition := by
  constructor
  · intro p bits slot sub
    refine ⟨rfl, ?_, fun symbol => wave_raw_of_symbol symbol p sub,
      fun symbol => wave_raw_of_symbol symbol p sub⟩
    rintro rfl
    exact wave_sync (.raw bits) p sub
  · intro p syms slot sub
    refine ⟨decide_eq_true_iff, ?_, fun symbol => wave_tri_of_symbol symbol p sub,
      fun symbol => wave_tri_of_symbol symbol p sub,
      fun symbol => ⟨wave_tri_of_symbol symbol p .first, wave_tri_of_symbol symbol p .second⟩⟩
    rintro rfl
    exact wave_sync (.tri syms) p sub

/-! ### One step of a send (R163 to R165, R208) -/

section
variable {s : State} (rst : s.rst = false) (sending : s.seqState = .transmitting)
include rst sending

theorem step_waits (waiting : s.ioReady = false) : step s = .next s := by
  simp [step_transmitting rst sending, transmitStep, waiting]

theorem step_hands_event (ready : s.ioReady = true) (left : s.passesLeft) :
    step s = .next (eventStep s) := by
  rw [step_transmitting rst sending, transmitStep, if_pos ready, if_pos left]

theorem step_ends_send (ready : s.ioReady = true) (done : ¬ s.passesLeft) :
    step s = .next (endSend s) := by
  rw [step_transmitting rst sending, transmitStep, if_pos ready, if_neg done]

end

/-- Settles O19: in TRANSMITTING the step is `transmitStep`, which always answers. -/
theorem sendWaitsForTheCollaborator : Obligations.SendWaitsForTheCollaborator :=
  fun _ rst sending => ⟨⟨_, step_transmitting rst sending⟩, step_waits rst sending⟩

/-- Settles O17, by the six ways the position advances. -/
theorem sequencerEventStep : Obligations.SequencerEventStep := by
  intro s rst sending ready left
  rw [step_hands_event rst sending ready left, eventStep]
  refine congrArg Host.Outcome.next ?_
  have ways := advance_cases (complete (positionEvent s) s)
  simp only [complete_ph, complete_sub, complete_buf, complete_slot] at ways
  rcases ways with ⟨ph, next⟩ | ⟨ph, next⟩ | ⟨ph, next⟩ | ⟨ph, sub, two, next⟩ |
    ⟨ph, last, inside, next⟩ | ⟨ph, last, past, next⟩
  all_goals
    rw [next]
    simp only [complete, positionEvent, ph, phaseEvent, Event.levelAfter]
  · rw [if_pos ⟨sub, two⟩]
  · rw [if_neg last, if_pos inside]
  · rw [if_neg last, if_neg past]

/-- Settles O18: `rep = R` leaves no pass, and the step is the end of the send. -/
theorem sequencerEndStep : Obligations.SequencerEndStep := by
  intro s rst sending ready last
  have done : ¬ s.passesLeft := by
    rw [passesLeft_iff, last]
    exact Nat.lt_irrefl _
  exact ⟨endSend s, step_ends_send rst sending ready done, endSend_sendEnds s⟩

/-- Settles O20: a send takes a step for each of its events, and these are counted. -/
theorem sequencerAgreesWithSendEvents : Obligations.SequencerAgreesWithSendEvents := by
  intro s start rst ready
  rw [← sendEvents_length s.cfg.idlePolicy s.proto]
  exact steps_send start rst ready

/-! ### The transitions of the state machine (R160) -/

/-- The commands that can start a send (R158, R159, R126 to R131). -/
def IsSendCommand (i : Instr) : Prop :=
  (∃ bits, i = .sendraw bits) ∨ (∃ syms, i = .sendtri syms) ∨
    (∃ ga ch, i = .swaOn ga ch ∨ i = .swaOff ga ch) ∨
    (∃ ac cc, i = .swbOn ac cc ∨ i = .swbOff ac cc)

/-- A command is a send or leaves the state machine where it is (R104, R105, R122). -/
theorem isSend_or_exec_seqState {i : Instr} {s t : State} (runs : exec i s = .next t) :
    IsSendCommand i ∨ t.seqState = s.seqState := by
  cases i with
  | setprotoRom k =>
    simp only [exec, execSetprotoRom] at runs
    split at runs
    · exact .inr (Host.Outcome.next.inj runs ▸ rfl)
    · cases runs
  | setprotoTbl p =>
    simp only [exec, execSetprotoTbl] at runs
    split at runs
    · exact .inr (Host.Outcome.next.inj runs ▸ rfl)
    · cases runs
  | sendraw bits => exact .inl (.inl ⟨bits, rfl⟩)
  | sendtri syms => exact .inl (.inr (.inl ⟨syms, rfl⟩))
  | swaOn ga ch => exact .inl (.inr (.inr (.inl ⟨ga, ch, .inl rfl⟩)))
  | swaOff ga ch => exact .inl (.inr (.inr (.inl ⟨ga, ch, .inr rfl⟩)))
  | swbOn ac cc => exact .inl (.inr (.inr (.inr ⟨ac, cc, .inl rfl⟩)))
  | swbOff ac cc => exact .inl (.inr (.inr (.inr ⟨ac, cc, .inr rfl⟩)))
  | addrpat plen pbits =>
    simp only [exec, execAddrpat] at runs
    split at runs
    · exact .inr (Host.Outcome.next.inj runs ▸ rfl)
    · split at runs
      · cases runs
      · exact .inr (Host.Outcome.next.inj runs ▸ rfl)

/-- A command that takes the block out of IDLE found the pin and stands at the start of its send
(R157, R161). -/
theorem exec_starts {i : Instr} {s t : State} (idle : s.seqState = .idle)
    (runs : exec i s = .next t) (started : t.seqState = .transmitting) :
    s.pinPresent = true ∧ t.AtSendStart ∧ IsSendCommand i := by
  have left : t.seqState ≠ s.seqState := by simp [idle, started]
  have isSend := (isSend_or_exec_seqState runs).resolve_right left
  rcases exec_cases runs with ⟨p, -, rfl⟩ | ⟨b, present, rfl⟩ | ⟨r, -, rfl⟩
  · exact absurd rfl left
  · exact ⟨present, ⟨rfl, rfl, rfl, rfl, rfl⟩, isSend⟩
  · exact absurd rfl left

/-- A step of a send that comes back to IDLE is its end (R165). -/
theorem transmitStep_idle {s : State} (sending : s.seqState = .transmitting)
    (ended : (transmitStep s).seqState = .idle) :
    s.ioReady = true ∧ ¬ s.passesLeft ∧ transmitStep s = endSend s := by
  rcases transmitStep_cases s with ⟨-, waits⟩ | ⟨-, -, hands⟩ | ends
  · simp [waits, sending] at ended
  · simp [hands, eventStep, sending] at ended
  · exact ends

theorem handResponse_seqState (r : Resp) (s : State) :
    (handResponse r s).seqState = s.seqState := by
  rcases handResponse_cases r s with ⟨-, taken⟩ | ⟨-, waits⟩
  · rw [taken]
  · rw [waits]

/-- Settles O23: of the steps out of reset only a command leaves IDLE, and only `transmitStep` runs
in TRANSMITTING. -/
theorem onlySendsStartAndOnlyTheClosingDriveEnds :
    Obligations.OnlySendsStartAndOnlyTheClosingDriveEnds := by
  intro s t rst h
  rcases step_cases h with ⟨reset, -⟩ | ⟨-, sending, rfl⟩ | ⟨-, idle, r, -, rfl⟩ |
    ⟨-, idle, -, -, rfl⟩ | ⟨-, idle, noOffer, i, rest, decoded, runs⟩
  · simp [rst] at reset
  · refine ⟨fun idle => by simp [sending] at idle, fun _ ended => ?_⟩
    obtain ⟨ready, done, ends⟩ := transmitStep_idle sending ended
    exact ⟨ready, done, by rw [ends]; rfl⟩
  · refine ⟨fun _ started => ?_, fun sending => by simp [idle] at sending⟩
    simp [handResponse_seqState, idle] at started
  · refine ⟨fun _ started => ?_, fun sending => by simp [idle] at sending⟩
    simp [idle] at started
  · refine ⟨fun _ started => ?_, fun sending => by simp [idle] at sending⟩
    obtain ⟨present, start, isSend⟩ :=
      exec_starts (s := { s with pkt := [], cmdIn := rest }) idle runs started
    exact ⟨noOffer, present, start, i, rest, decoded, isSend⟩

end Machine

end Sys2Proof
end

section
/-! The waveform of an event list (R173): each delay is put in front of a folded list, and a folded
list stays one. -/

namespace Sys2Proof

namespace Machine

/-- Segments in the folded form of R173: they last `time` altogether, none is empty and no two
neighbours have one level. -/
def IsFolded (time : Nat) (gs : List Segment) : Prop :=
  (gs.map Segment.micros).sum = time ∧ (∀ g ∈ gs, g.micros ≠ 0) ∧
    gs.IsChain fun g h => g.level ≠ h.level

/-- A segment in front of the rest is dropped, merged with the first of the rest, or put there. -/
theorem Segment.before_cases (g : Segment) (rest : List Segment) :
    (g.micros = 0 ∧ g.before rest = rest) ∨
    (∃ h t, rest = h :: t ∧ g.level = h.level ∧
      g.before rest = { h with micros := g.micros + h.micros } :: t) ∨
    (g.micros ≠ 0 ∧ (∀ h ∈ rest.head?, g.level ≠ h.level) ∧ g.before rest = g :: rest) := by
  by_cases empty : g.micros = 0
  · exact .inl ⟨empty, if_pos empty⟩
  · cases rest with
    | nil => exact .inr (.inr ⟨empty, by simp, if_neg empty⟩)
    | cons h t =>
      by_cases same : g.level = h.level
      · exact .inr (.inl ⟨h, t, rfl, same, by simp [Segment.before, empty, same]⟩)
      · exact .inr (.inr ⟨empty, by simpa using same, by simp [Segment.before, empty, same]⟩)

theorem IsFolded.before {time : Nat} {rest : List Segment} (folded : IsFolded time rest)
    (g : Segment) : IsFolded (g.micros + time) (g.before rest) := by
  obtain ⟨total, nonempty, chain⟩ := folded
  rcases g.before_cases rest with ⟨empty, dropped⟩ | ⟨h, t, rfl, same, merged⟩ |
    ⟨lasts, differs, put⟩
  · rw [dropped, empty, Nat.zero_add]
    exact ⟨total, nonempty, chain⟩
  · rw [merged]
    obtain ⟨first, others⟩ := List.forall_mem_cons.1 nonempty
    rw [List.map_cons, List.sum_cons] at total
    refine ⟨?_, List.forall_mem_cons.2 ⟨?_, others⟩, ?_⟩
    · simp only [List.map_cons, List.sum_cons]
      omega
    · exact fun zero => first (Nat.add_eq_zero_iff.1 zero).2
    · rw [List.isChain_cons] at chain ⊢
      exact chain
  · rw [put]
    refine ⟨?_, List.forall_mem_cons.2 ⟨lasts, nonempty⟩, List.isChain_cons.2 ⟨differs, chain⟩⟩
    rw [List.map_cons, List.sum_cons, total]

/-- Settles O57, by induction on the event list: a drive takes no time, a delay is one segment more
in front. -/
theorem waveformKeepsTheTime : Obligations.WaveformKeepsTheTime := by
  intro start es
  change IsFolded (nominal es) (waveform start es)
  induction es generalizing start with
  | nil => exact ⟨rfl, by simp [waveform], .nil⟩
  | cons e es ih =>
    cases e with
    | set l =>
      have time : nominal (.set l :: es) = nominal es := by simp [nominal, Event.micros]
      rw [time]
      exact ih (some l)
    | delay n => exact (ih start).before ⟨start, n.toNat⟩

end Machine

end Sys2Proof
end

section
/-! The errors of a command (R190 to R197). The idea: which error a command raises, if any, is read
off its operands and `SWA_FAULT_ORDER` alone, so neither the pin strap nor any other state can
matter to it. -/

namespace Sys2Proof

namespace Machine

/-! ### The checks of a Type A command (R123, R196) -/

/-- A bad channel is reported when it is the one bad operand or is checked first (R192, R196). -/
theorem validA_eq_invalidChannel {order : Config.FaultOrder} {ga : Nat} {ch : Int}
    (bad : badChannel ch) (reported : ga < 32 ∨ order = .channelFirst) :
    validA order ga ch = some .invalidChannel := by
  cases order with
  | channelFirst => exact if_pos bad
  | addressFirst =>
    have goodAddress : ¬ badAddress ga := Nat.not_le.2 (reported.resolve_right nofun)
    exact (if_neg goodAddress).trans (if_pos bad)

/-- A bad address is reported when it is the one bad operand or is checked first (R193, R196). -/
theorem validA_eq_invalidAddress {order : Config.FaultOrder} {ga : Nat} {ch : Int}
    (bad : badAddress ga) (reported : (1 ≤ ch ∧ ch ≤ 5) ∨ order = .addressFirst) :
    validA order ga ch = some .invalidAddress := by
  cases order with
  | channelFirst =>
    have goodChannel : ¬ badChannel ch := by
      obtain ⟨first, last⟩ := reported.resolve_right nofun
      omega
    exact (if_neg goodChannel).trans (if_pos bad)
  | addressFirst => exact if_pos bad

/-! ### The error a command raises -/

/-- The error of a command, or none (R191): a Type A switch command checks both operands, ADDRPAT
its length, and no other command has a check that answers with an error. -/
def errorOf (order : Config.FaultOrder) : Instr → Option ErrorKind
  | .swaOn ga ch => validA order ga ch
  | .swaOff ga ch => validA order ga ch
  | .addrpat plen _ => if plen ≠ 5 then some .invalidAddress else none
  | _ => none

/-- A Type A command whose check fails only responds (R194). -/
theorem switchA_of_error {ga : Nat} {ch : Int} {s : State} {e : ErrorKind}
    (raised : validA s.cfg.swaFaultOrder ga ch = some e) (on : Bool) :
    switchA ga ch on s = respond (.err e) s := by
  simp only [switchA, raised, raiseError_eq_respond]

/-- A command that has an error writes the response and nothing else (R194). -/
theorem exec_of_errorOf {i : Instr} {s : State} {e : ErrorKind}
    (raised : errorOf s.cfg.swaFaultOrder i = some e) : exec i s = .next (respond (.err e) s) := by
  cases i with
  | swaOn ga ch => exact congrArg Host.Outcome.next (switchA_of_error raised true)
  | swaOff ga ch => exact congrArg Host.Outcome.next (switchA_of_error raised false)
  | addrpat plen pbits =>
    obtain ⟨other, kind⟩ := Option.ite_none_right_eq_some.1 raised
    obtain rfl := Option.some.inj kind
    exact if_pos other
  | setprotoRom k => nomatch raised
  | setprotoTbl p => nomatch raised
  | sendraw bits => nomatch raised
  | sendtri syms => nomatch raised
  | swbOn ac cc => nomatch raised
  | swbOff ac cc => nomatch raised

/-! ### No other errors -/

/-- A send puts OK on offer or nothing yet (R155, R157). -/
theorem send_rsp_ne_err {s : State} (noOffer : s.rsp = none) (b : Buf) (e : ErrorKind) :
    (send b s).rsp ≠ some (.err e) := by
  rcases send_cases b s with ⟨-, starts⟩ | ⟨-, answers⟩
  · simp [starts, noOffer]
  · simp [answers]

/-- An error of a Type A command is that of its checks (R126, R127). -/
theorem validA_of_switchA_err {ga : Nat} {ch : Int} {on : Bool} {s : State} {e : ErrorKind}
    (noOffer : s.rsp = none) (erred : (switchA ga ch on s).rsp = some (.err e)) :
    validA s.cfg.swaFaultOrder ga ch = some e := by
  cases check : validA s.cfg.swaFaultOrder ga ch with
  | some e' => simpa [switchA_of_error check] using erred
  | none =>
    simp only [switchA, check] at erred
    exact absurd erred (send_rsp_ne_err noOffer _ e)

/-- A Type B command raises no error (R129, R136). -/
theorem switchB_rsp_ne_err {s : State} (noOffer : s.rsp = none) (ac cc : Int) (on : Bool)
    (e : ErrorKind) : (switchB ac cc on s).rsp ≠ some (.err e) := by
  unfold switchB
  split
  · exact send_rsp_ne_err noOffer _ e
  · unfold invalidB
    split
    · simp
    · exact send_rsp_ne_err noOffer _ e

/-- A command that answers with an error has that error (R190, R191). -/
theorem errorOf_of_exec {i : Instr} {s t : State} {e : ErrorKind} (noOffer : s.rsp = none)
    (runs : exec i s = .next t) (erred : t.rsp = some (.err e)) :
    errorOf s.cfg.swaFaultOrder i = some e := by
  cases i with
  | setprotoRom k =>
    simp only [exec, execSetprotoRom] at runs
    split at runs
    · obtain rfl := Host.Outcome.next.inj runs
      simp at erred
    · cases runs
  | setprotoTbl p =>
    simp only [exec, execSetprotoTbl] at runs
    split at runs
    · obtain rfl := Host.Outcome.next.inj runs
      simp at erred
    · cases runs
  | sendraw bits =>
    obtain rfl := Host.Outcome.next.inj runs
    exact absurd erred (send_rsp_ne_err noOffer _ e)
  | sendtri syms =>
    obtain rfl := Host.Outcome.next.inj runs
    exact absurd erred (send_rsp_ne_err noOffer _ e)
  | swaOn ga ch =>
    obtain rfl := Host.Outcome.next.inj runs
    exact validA_of_switchA_err noOffer erred
  | swaOff ga ch =>
    obtain rfl := Host.Outcome.next.inj runs
    exact validA_of_switchA_err noOffer erred
  | swbOn ac cc =>
    obtain rfl := Host.Outcome.next.inj runs
    exact absurd erred (switchB_rsp_ne_err noOffer ac cc true e)
  | swbOff ac cc =>
    obtain rfl := Host.Outcome.next.inj runs
    exact absurd erred (switchB_rsp_ne_err noOffer ac cc false e)
  | addrpat plen pbits =>
    simp only [exec, execAddrpat] at runs
    split at runs
    · next other =>
      obtain rfl := Host.Outcome.next.inj runs
      simpa [errorOf, other] using erred
    · split at runs
      · cases runs
      · obtain rfl := Host.Outcome.next.inj runs
        simp at erred

/-! ### The two statements -/

/-- Settles O34: the error is one of the operands and the fault order, which are the same under
any strap. -/
theorem errorsLeaveNoTrace : Obligations.ErrorsLeaveNoTrace := by
  intro i s t e noOffer runs erred
  have raised : errorOf s.cfg.swaFaultOrder i = some e := errorOf_of_exec noOffer runs erred
  obtain rfl := Host.Outcome.next.inj ((exec_of_errorOf raised).symm.trans runs)
  exact ⟨rfl, fun pin => exec_of_errorOf (s := { s with pinPresent := pin }) raised, rfl, rfl⟩

/-- Settles O26: both commands run the same checks, and the fault order decides which failing one
is reported. -/
theorem swaRaisesOnBadOperands : Obligations.SwaRaisesOnBadOperands := by
  intro ga ch s i command
  have raises : ∀ e, validA s.cfg.swaFaultOrder ga ch = some e →
      exec i s = .next { s with rsp := some (.err e) } := by
    intro e failed
    rcases command with rfl | rfl
    · exact exec_of_errorOf failed
    · exact exec_of_errorOf failed
  exact ⟨fun bad good => raises _ (validA_eq_invalidChannel bad (.inl good)),
    fun first last bad => raises _ (validA_eq_invalidAddress bad (.inl ⟨first, last⟩)),
    fun chBad gaBad =>
      ⟨fun order => raises _ (validA_eq_invalidChannel chBad (.inr order)),
        fun order => raises _ (validA_eq_invalidAddress gaBad (.inr order))⟩⟩

end Machine

end Sys2Proof
end

section
/-! The nominal durations under the registry rows (R230). The idea: where a zero lasts as long as a
one, a codeword's duration is its length alone, so each figure comes from `dz`, `ds` and a count. -/

namespace Sys2Proof

namespace Machine

/-! ### Tables whose zero and one last the same -/

section

variable {p : Proto} {dz : Nat}

/-- Every raw symbol lasts one waveform (R167). -/
theorem nominal_mapRaw_of_same (wf : p.WellFormed) (zero : dBoth p p.zero = dz)
    (one : dBoth p p.one = dz) (b : Bool) : nominal (mapRaw p b) = dz := by
  obtain ⟨-, -, -, rawFalse, rawTrue⟩ := nominal_symbols wf
  cases b with
  | false => rw [rawFalse, zero]
  | true => rw [rawTrue, one]

/-- Every tri-state symbol lasts two waveforms (R167). -/
theorem nominal_mapTri_of_same (wf : p.WellFormed) (zero : dBoth p p.zero = dz)
    (one : dBoth p p.one = dz) (x : Sym3) : nominal (mapTri p x) = 2 * dz := by
  obtain ⟨tri0, tri1, triF, -, -⟩ := nominal_symbols wf
  cases x with
  | s0 => rw [tri0, zero]
  | s1 => rw [tri1, one]
  | sF => rw [triF, zero, one, Nat.two_mul]

/-- The symbols of a codeword last what their number says. -/
theorem nominal_symbolEvents_tri_of_same (wf : p.WellFormed) (zero : dBoth p p.zero = dz)
    (one : dBoth p p.one = dz) (syms : List Sym3) :
    nominal (symbolEvents p (.tri syms)) = 2 * dz * syms.length :=
  addsUp_nominal.flatMap_of_const (nominal_mapTri_of_same wf zero one) syms

end

/-! ### The seven rows -/

/-- Settles O13: the two waveform durations of each row are computed, and the other figures follow
from them, a pass of twelve symbols being `24 * dz + ds` and a send ten of those. -/
theorem registrySendDurations : Obligations.RegistrySendDurations := by
  intro figures listed
  have computed : ∃ p, rom figures.1 = some p ∧ dBoth p p.zero = figures.2.1 ∧
      dBoth p p.sync = figures.2.2.1 ∧
      2 * figures.2.1 * 12 + figures.2.2.1 = figures.2.2.2.1 ∧
      10 * figures.2.2.2.1 = figures.2.2.2.2 := by
    simp only [List.mem_cons, List.not_mem_nil, or_false] at listed
    obtain rfl | rfl | rfl | rfl | rfl | rfl | rfl := listed
    all_goals exact ⟨_, rfl, rfl, rfl, rfl, rfl⟩
  obtain ⟨p, row, zero, sync, pass, send⟩ := computed
  have wf : p.WellFormed := rom_wellFormed row
  have one : dBoth p p.one = figures.2.1 := (rom_dBoth_zero_eq_one row).symm.trans zero
  obtain ⟨-, -, syncEmission⟩ := nominal_emit_of_wellFormed wf
  refine ⟨p, row, zero, one, sync, nominal_mapRaw_of_same wf zero one,
    nominal_mapTri_of_same wf zero one, syncEmission.trans sync, fun policy syms twelve => ?_⟩
  have symbols : nominal (symbolEvents p (.tri syms)) = 2 * figures.2.1 * 12 :=
    twelve ▸ nominal_symbolEvents_tri_of_same wf zero one syms
  constructor
  · rw [addsUp_nominal.passEvents, symbols, syncEmission, sync, pass]
  · rw [nominal_sendEvents wf, symbols, sync, pass, send]

end Machine

end Sys2Proof
end

section
/-! What a reset abandons (R220, R221): the state of R37 replaces what is in progress, and of the
observation only the event on offer is in doubt. -/

namespace Sys2Proof

namespace Machine

/-- In IDLE no event is on offer for a reset to settle (R33). -/
theorem settleOffered_of_idle {s : State} (idle : s.seqState = .idle) : settleOffered s = s := by
  simp only [settleOffered, (offered_eq_none_iff s).2 idle]

/-- An event that the collaborator has not completed is dropped (R221). -/
theorem settleOffered_of_not_ready {s : State} (waiting : s.ioReady = false) :
    settleOffered s = s := by
  unfold settleOffered
  cases offered s with
  | none => rfl
  | some e => simp [waiting]

/-- Settles O50: the step under reset is `applyReset`, which leaves the events to
`settleOffered`. -/
theorem resetAbandonsTheSend : Obligations.ResetAbandonsTheSend := fun s rst =>
  ⟨applyReset s, step_reset rst, rfl, rfl, rfl, rfl, rfl, rfl, rfl, rfl, rfl,
    fun idle => by rw [applyReset_events, settleOffered_of_idle idle],
    fun waiting => by rw [applyReset_events, settleOffered_of_not_ready waiting],
    settleOffered_events s⟩

end Machine

end Sys2Proof
end
